-- ==== Sys2Proof/Word.lean ====
section
/-! DEFINITION. The words of the machine: bytes, sponge lanes, the command word and the 64-bit port
words (30_encoding.md R80, 10_state.md R22, R23). -/

namespace Sys2Proof

/-- One byte: the unit `PUSH.*` and `RDPOOL` move (20_memory.md R67). -/
abbrev Byte := BitVec 8

/-- One lane of the sponge state, 64 bits (10_state.md R23). -/
abbrev Lane := BitVec 64

/-- `CMD`, the command word, 16 bits (30_encoding.md R80). -/
abbrev CmdWord := BitVec 16

/-- `WDATA`, `RDATA` and CSR values, 64 bits (30_encoding.md R80, 10_state.md R45). -/
abbrev Word64 := BitVec 64

end Sys2Proof
end

