-- ==== Sys2Proof/Syntax.lean ====
section
/-! DEFINITION. The command set WHM-1 (30_encoding.md R84): one constructor per row of
spec/opcode_table.json, the command as it stands at the port (R80), and the names of the control and
status registers (10_state.md R45). -/

namespace Sys2Proof

/-- What the host presents at the port and the block samples once: `CMD` and `WDATA`
(30_encoding.md R80). -/
structure Command where
  cmd   : CmdWord
  wdata : Word64
  deriving DecidableEq, Repr

/-- The nine commands of WHM-1 with their operands (30_encoding.md R81, R83, R84). The operand types
are exactly the encoded fields, so every term is a command the encoding admits. `csrw` carries the
whole of `WDATA`, its second operand (R83, R88; notes/assumptions/8.md). -/
inductive Instr where
  | pushW   (data : Byte)
  | pushH   (data : Byte)
  | pushWH  (data : Byte)
  | rdpool
  | discard
  | healthy
  | entropy
  | csrr    (csr : Byte)
  | csrw    (csr : Byte) (value : Word64)
  deriving DecidableEq, Repr

/-- The nine registers of the CSR map (10_state.md R45), under their names. -/
inductive Csr where
  | target
  | tolerance
  | window
  | totBits
  | eSumLo
  | eSumHi
  | hist
  | chCnt
  | poolCnt
  deriving DecidableEq, Repr

end Sys2Proof
end

