-- ==== Sys2Proof/WellFormed.lean ====
section
/-! DEFINITION. Which 16-bit words are commands: the three formats of 30_encoding.md R81 and the list
of illegal words of R86, read by plain arithmetic on the word's value. It is written independently of
the decoder (Decode.lean follows the chain of R85), so that the two can be compared.
A term of `Instr` needs no check of its own: its operand types are the encoded fields (R83). -/

namespace Sys2Proof

/-- The three formats of 30_encoding.md R81. -/
inductive Format where
  /-- P (push): `op = 1`, `sel` = `dst` in 1..3, `imm8` = data. -/
  | push
  /-- Z (zero operand): `op` in 2..5, `sel = 0`, `imm8 = 0`. -/
  | zeroOperand
  /-- C (CSR): `op` 6 or 7, `sel = 0`, `imm8` = register number. -/
  | csr
  deriving DecidableEq, Repr

/-- The format that the major opcode (bits 15..12 of the word) selects, if any (R81). -/
def formatOf (word : CmdWord) : Option Format :=
  match word.toNat / 4096 with
  | 1 => some .push
  | 2 | 3 | 4 | 5 => some .zeroOperand
  | 6 | 7 => some .csr
  | _ => none

/-- Whether a word obeys its format (R81, R86): a push goes somewhere and has `CMD[11:10] = 0`, a
zero-operand command has no operand bits, a CSR command has selector 0, and no other `op` exists. -/
def CmdWord.wellFormed (word : CmdWord) : Bool :=
  match formatOf word with
  | some .push => 1 ≤ word.toNat / 256 % 16 && word.toNat / 256 % 16 ≤ 3
  | some .zeroOperand => word.toNat % 4096 == 0
  | some .csr => word.toNat / 256 % 16 == 0
  | none => false

end Sys2Proof
end

