-- ==== Sys2Proof/Decode.lean ====
section
/-! DEFINITION. The decoder (30_encoding.md R85), total on every command word, and the encoder (R88),
written from the spec's two tables. -/

namespace Sys2Proof

/-- `op`, `CMD[15:12]` (R81). -/
def opField (w : CmdWord) : BitVec 4 := w.extractLsb' 12 4

/-- `sel`, `CMD[11:8]` (R81). -/
def selField (w : CmdWord) : BitVec 4 := w.extractLsb' 8 4

/-- `imm8`, `CMD[7:0]` (R81). -/
def immField (w : CmdWord) : Byte := w.extractLsb' 0 8

/-- R85, clause by clause. `none` is *illegal* (R86). `wdata` is read by `CSRW` alone (R80, R192). -/
def decode (w : CmdWord) (wdata : Word64) : Option Instr :=
  if opField w = 1 ∧ selField w = 1 then some (.pushW (immField w))
  else if opField w = 1 ∧ selField w = 2 then some (.pushH (immField w))
  else if opField w = 1 ∧ selField w = 3 then some (.pushWH (immField w))
  else if w = 0x2000 then some .rdpool
  else if w = 0x3000 then some .discard
  else if w = 0x4000 then some .healthy
  else if w = 0x5000 then some .entropy
  else if opField w = 6 ∧ selField w = 0 then some (.csrr (immField w))
  else if opField w = 7 ∧ selField w = 0 then some (.csrw (immField w) wdata)
  else none

/-- The command word of R88's table and the `WDATA` that goes with it: the value of `CSRW`, and 0
where `WDATA` is ignored (R80). -/
def encode : Instr → Command
  | .pushW data     => ⟨0x1100 ||| data.setWidth 16, 0⟩
  | .pushH data     => ⟨0x1200 ||| data.setWidth 16, 0⟩
  | .pushWH data    => ⟨0x1300 ||| data.setWidth 16, 0⟩
  | .rdpool         => ⟨0x2000, 0⟩
  | .discard        => ⟨0x3000, 0⟩
  | .healthy        => ⟨0x4000, 0⟩
  | .entropy        => ⟨0x5000, 0⟩
  | .csrr csr       => ⟨0x6000 ||| csr.setWidth 16, 0⟩
  | .csrw csr value => ⟨0x7000 ||| csr.setWidth 16, value⟩

/-- The mnemonic of 30_encoding.md R84. -/
def Instr.mnemonic : Instr → String
  | .pushW _  => "PUSH.W"
  | .pushH _  => "PUSH.H"
  | .pushWH _ => "PUSH.WH"
  | .rdpool   => "RDPOOL"
  | .discard  => "DISCARD"
  | .healthy  => "HEALTHY"
  | .entropy  => "ENTROPY"
  | .csrr _   => "CSRR"
  | .csrw _ _ => "CSRW"

/-- The assembler line of R88, numbers in decimal. Reading such a line: Machine/Assembler.lean
(notes/assumptions/17.md). -/
def Instr.asm : Instr → String
  | .pushW data     => "PUSH.W " ++ toString data.toNat
  | .pushH data     => "PUSH.H " ++ toString data.toNat
  | .pushWH data    => "PUSH.WH " ++ toString data.toNat
  | .rdpool         => "RDPOOL"
  | .discard        => "DISCARD"
  | .healthy        => "HEALTHY"
  | .entropy        => "ENTROPY"
  | .csrr csr       => "CSRR " ++ toString csr.toNat
  | .csrw csr value => "CSRW " ++ toString csr.toNat ++ ", " ++ toString value.toNat

/-- What the decoder reads from a row of spec/opcode_table.json: a command is one 16-bit word (R81),
so a number with a bit above bit 15 is no command word. `WDATA` has no bits in the table and is 0
(notes/assumptions/15.md). -/
def decodeTableWord (nbits w : Nat) : Option Instr :=
  if w % 2 ^ nbits < 2 ^ 16 then decode (BitVec.ofNat 16 (w % 2 ^ nbits)) 0 else none

end Sys2Proof
end

