-- ==== Sys2Proof/Config.lean ====
section
/-! DEFINITION. The implementation parameters of 00_scope.md R7 that are numbers. Nothing here is a
free value: the spec fixes every one of them, and it leaves no observable value open
(93_implementation_defined.md, part 1; notes/assumptions 5, 6, 10). Sizes that are bounds of a field
of State stand in the field's own type (State.lean); the tables of the sponge stand beside the
permutation (Machine/Sponge.lean). -/

namespace Sys2Proof.Config

/-- CHUNK_BYTES, the absorption unit (R7). -/
abbrev chunkBytes : Nat := 256

/-- BLOCK_BYTES, the squeeze output of one round (R7). -/
abbrev blockBytes : Nat := 2048

/-- RATE_BYTES of the sponge (R7). -/
abbrev rateBytes : Nat := 136

/-- `G`, the guard fraction bits of the reference logarithm (R7, 42_health_monitor_ops.md R153). -/
abbrev guardBits : Nat := 96

/-- Reset value of `TARGET`: 0.864 bit per bit, in micro-bits (R7). -/
abbrev targetReset : BitVec 32 := 864000

/-- Reset value of `TOLERANCE`: 0.05, in parts per million (R7). -/
abbrev toleranceReset : BitVec 32 := 50000

/-- Reset value of `WINDOW`, in bits (R7). -/
abbrev windowReset : BitVec 64 := 80000

end Sys2Proof.Config
end

