-- ==== Sys2Proof/Machine/State.lean ====
section
/-! DEFINITION. The state of one WHM block (10_state.md) and its port (30_encoding.md R80), as plain
data, with the reset values of 10_state.md R50, and the reasons a step could stop. -/

namespace Sys2Proof.Machine

/-- An internal byte store (`CHUNK`, `POOL`): cells (index, byte), indices strictly rising, no cell
equal to what an unlisted index reads as (`Memory.wf`, Machine/Ops.lean; 20_memory.md R60). -/
abbrev Memory := List Host.Cell

/-- The running sponge: `S[0..199]` (10_state.md R22) and `ABSPOS` (R24). -/
structure Sponge where
  /-- `S[0..199]`. -/
  bytes  : Vector Byte 200
  /-- `ABSPOS`, the index in `S` at which the next byte is absorbed. -/
  absPos : Fin 136
  deriving DecidableEq, Repr

/-- The whitener's state (10_state.md R22 to R28). -/
structure Whitener where
  sponge : Sponge
  /-- `CHUNK[0..255]`; only the bytes below `CHCNT` hold raw bytes (R25). -/
  chunk  : Memory
  /-- `CHCNT`; 256 is never stored (R26). -/
  chCnt  : Fin 256
  /-- `POOL[0..2047]`; only the bytes from `POOLRD` up are undelivered (R27). -/
  pool   : Memory
  /-- `POOLRD`; 2048 means the pool is empty (R28). -/
  poolRd : Fin 2049
  deriving DecidableEq, Repr

/-- The two counters of one context: `CNT[h][0]` and `CNT[h][1]` (10_state.md R30). -/
structure Counters where
  zeros : BitVec 64
  ones  : BitVec 64
  deriving DecidableEq, Repr

/-- The monitor's state (10_state.md R30 to R33). -/
structure Monitor where
  /-- `CNT[h][b]`. -/
  cnt     : Vector Counters 128
  /-- `HIST`: bit 0 is the newest observed bit. -/
  hist    : BitVec 7
  /-- `ESUM`, in units of 2^-32 bit. -/
  eSum    : BitVec 128
  /-- `TOTBITS`. -/
  totBits : BitVec 64
  deriving DecidableEq, Repr

/-- The configuration registers (10_state.md R40 to R42). -/
structure ConfigRegs where
  /-- `TARGET`, micro-bits. -/
  target    : BitVec 32
  /-- `TOLERANCE`, parts per million. -/
  tolerance : BitVec 32
  /-- `WINDOW`, bits. -/
  window    : BitVec 64
  deriving DecidableEq, Repr

/-- The six response codes (60_exceptions.md R190); 6 to 15 are never produced, so they have no
constructor (93_implementation_defined.md U4). -/
inductive Status where
  | ok
  | errIllegal
  | errPoolEmpty
  | errPoolBusy
  | errCntSat
  | errCsr
  deriving DecidableEq, Repr

/-- One response: `STATUS` and `RDATA` (30_encoding.md R80, R82). -/
structure Response where
  status : Status
  rdata  : Word64
  deriving DecidableEq, Repr

/-- What the outside presents at the port between two commands: a command, or the assertion of `RST`
(30_encoding.md R80, 70_reset_and_hazards.md R211). -/
inductive PortEvent where
  | command (c : Command)
  | reset
  deriving DecidableEq, Repr

/-- The whole machine: the two units and the configuration registers (the spec's state, 10_state.md)
and the two sides of the port (the model's own fields, notes/assumptions/1.md). -/
structure State where
  whitener : Whitener
  monitor  : Monitor
  config   : ConfigRegs
  /-- What the host will present, oldest first. -/
  inbox    : List PortEvent
  /-- The responses given, newest first. -/
  outbox   : List Response
  deriving DecidableEq, Repr

/-- Reasons the machine stops with a fault: none. Every command in every state has a defined response
and a defined next state (60_exceptions.md R205; 93_implementation_defined.md part 1), so the type is
empty and nothing raises it (safe: there is no such outcome to be wrong about). -/
inductive Fault where
  deriving DecidableEq, Repr

/-- Reasons the model has no meaning for a step. -/
inductive Refusal where
  /-- An instruction of the table without a meaning in this model. Raised by a refused arm of `exec`;
  no arm is refused, so nothing raises it (safe). The block's own refusals (60_exceptions.md R190) are
  responses of a next state, not this. -/
  | notModelled (mnemonic : String)
  deriving DecidableEq, Repr

/-- `Sponge0`: 200 zero bytes, position 0 (41_sponge_kernel.md R126, 10_state.md R50). -/
def Sponge.zero : Sponge := { bytes := Vector.replicate 200 0, absPos := 0 }

/-- The whitener after reset (10_state.md R50). The contents of `CHUNK` and `POOL` are unspecified
there; nothing is listed (DESIGN CHOICE, notes/assumptions/5.md). -/
def Whitener.reset : Whitener :=
  { sponge := Sponge.zero, chunk := [], chCnt := 0, pool := [], poolRd := 2048 }

/-- The monitor after reset (10_state.md R50). -/
def Monitor.reset : Monitor :=
  { cnt := Vector.replicate 128 { zeros := 0, ones := 0 }, hist := 0, eSum := 0, totBits := 0 }

/-- The configuration registers after reset (10_state.md R50). -/
def ConfigRegs.reset : ConfigRegs :=
  { target := Config.targetReset, tolerance := Config.toleranceReset, window := Config.windowReset }

/-- The machine right after reset (10_state.md R50, 70_reset_and_hazards.md R210), nothing presented
and nothing answered yet (DESIGN CHOICE, notes/assumptions/1.md). -/
def State.reset : State :=
  { whitener := Whitener.reset, monitor := Monitor.reset, config := ConfigRegs.reset
    inbox := [], outbox := [] }

end Sys2Proof.Machine
end

