-- ==== Sys2Proof/Machine/Ops.lean ====
section
/-! DEFINITION. The named operations: `MemRead` and `MemWrite` over the byte stores (00_scope.md R13),
the two ways a command ends, `respond` and `raise` (00_scope.md R14), and the reset of the block
(70_reset_and_hazards.md R210, R211). -/

namespace Sys2Proof.Machine

/-! ### The byte stores -/

/-- What an index that is not listed reads as. DESIGN CHOICE (notes/assumptions/5.md): the spec leaves
a byte that nothing has written unspecified (10_state.md R50) and lets a model fill it with zeros
(93_implementation_defined.md U2). -/
def Memory.unlisted : Byte := 0

/-- `MemRead(space, i, 1)` (00_scope.md R13). -/
def Memory.read : Memory → Nat → Byte
  | [], _ => Memory.unlisted
  | (a, b) :: rest, i => if a = i then b else Memory.read rest i

/-- `MemWrite(space, i, 1, v)` (00_scope.md R13), keeping the canonical form: writing what an unlisted
index reads as leaves no cell. -/
def Memory.write : Memory → Nat → Byte → Memory
  | [], i, v => if v = Memory.unlisted then [] else [(i, v)]
  | (a, b) :: rest, i, v =>
    if i < a then
      if v = Memory.unlisted then (a, b) :: rest else (i, v) :: (a, b) :: rest
    else if i = a then
      if v = Memory.unlisted then rest else (i, v) :: rest
    else (a, b) :: Memory.write rest i v

/-- A store that holds `bytes` at `base`, `base + 1`, ... and nothing else: how the round writes the
pool as a whole (10_state.md R27). -/
def Memory.ofBytes (base : Nat) : List Byte → Memory
  | [] => []
  | b :: rest =>
    if b = Memory.unlisted then Memory.ofBytes (base + 1) rest
    else (base, b) :: Memory.ofBytes (base + 1) rest

/-- The canonical form: indices strictly rising, no cell that says what an unlisted index says. -/
def Memory.wf : Memory → Bool
  | [] => true
  | (a, b) :: rest => b != Memory.unlisted && rest.all (fun c => a < c.1) && Memory.wf rest

/-- Every listed index lies inside a store of `size` bytes. -/
def Memory.within (size : Nat) (m : Memory) : Bool := m.all fun c => c.1 < size

/-- The `n` bytes at indices 0, 1, ..., n - 1, in order. -/
def Memory.firstBytes (m : Memory) (n : Nat) : List Byte := (List.range n).map m.read

/-! ### Responses -/

/-- The number of a response code (60_exceptions.md R190). -/
def Status.code : Status → BitVec 4
  | .ok           => 0
  | .errIllegal   => 1
  | .errPoolEmpty => 2
  | .errPoolBusy  => 3
  | .errCntSat    => 4
  | .errCsr       => 5

/-- The state after a response has been given. -/
def State.respond (s : State) (status : Status) (rdata : Word64) : State :=
  { s with outbox := { status := status, rdata := rdata } :: s.outbox }

/-- `respond(OK, d)` (00_scope.md R14): the command is done and answered. -/
def respondOk (rdata : Word64) (s : State) : Host.Outcome State Fault Refusal :=
  .next (s.respond .ok rdata)

/-- `raise <Code>` (00_scope.md R14, 60_exceptions.md R191): the block's one exceptional event, for
every command and every cause. It answers the code with `RDATA = 0` and changes no state element;
nothing is saved and control goes nowhere, so there is no return from it (60_exceptions.md R199). -/
def raise (code : Status) (s : State) : Host.Outcome State Fault Refusal :=
  .next (s.respond code 0)

/-- The newest response, if the block has given one. -/
def State.lastResponse (s : State) : Option Response := s.outbox.head?

/-! ### Events at the port -/

/-- The answer to a word that decodes to no command (30_encoding.md R86, 60_exceptions.md R192). -/
def illegalCommand (s : State) : Host.Outcome State Fault Refusal :=
  raise .errIllegal s

/-- The assertion of `RST` (70_reset_and_hazards.md R210, R211): every state element takes its reset
value. What the host still has to present and what it has been answered are the host's, not the
block's, and stay (notes/assumptions/4.md). -/
def assertReset (s : State) : State :=
  { State.reset with inbox := s.inbox, outbox := s.outbox }

/-- Nothing is presented: the block waits, ready, and nothing changes (DEDUCED from
70_reset_and_hazards.md R212 and 60_exceptions.md R205; notes/assumptions/2.md). -/
def idle (s : State) : Host.Outcome State Fault Refusal := .next s

/-- The host presents an event before everything else it has to present. -/
def State.present (s : State) (e : PortEvent) : State := { s with inbox := e :: s.inbox }

end Sys2Proof.Machine
end

