-- ==== Sys2Proof/Machine/Flags.lean ====
section
/-! DEFINITION. The predicates a command tests. The block has no stored flag (10_state.md R47): each is
computed afresh from the state whenever a command asks. -/

namespace Sys2Proof.Machine

/-- The whitener push guard (40_whitener_ops.md R101): undelivered bytes remain in the pool. -/
def Whitener.poolBusy (w : Whitener) : Bool := w.poolRd.val != 2048

/-- The saturation guard (42_health_monitor_ops.md R151): 8 more bits would pass `2^64 - 1`. -/
def Monitor.saturated (m : Monitor) : Bool := 2 ^ 64 - 9 < m.totBits.toNat

/-- The health verdict on `ESUM`, `TOTBITS`, `TARGET`, `TOLERANCE`, `WINDOW`, over the unbounded
integers (42_health_monitor_ops.md R160). -/
def verdict (E N T L W : Nat) : Bool :=
  if N < W then true
  else if N = 0 then decide (T * 10 ^ 6 ≤ T * L)
  else decide (((E : Int) * 10 ^ 12 - (T : Int) * 10 ^ 6 * 2 ^ 32 * N).natAbs ≤ T * L * 2 ^ 32 * N)

/-- The predicate *healthy* of a state (10_state.md R47, 42_health_monitor_ops.md R160). -/
def State.isHealthy (s : State) : Bool :=
  verdict s.monitor.eSum.toNat s.monitor.totBits.toNat s.config.target.toNat s.config.tolerance.toNat
    s.config.window.toNat

end Sys2Proof.Machine
end

