-- ==== Sys2Proof/Machine/Surprise.lean ====
section
/-! DEFINITION. The surprise of one bit in exact fixed point (42_health_monitor_ops.md R152, R153).
The reference algorithm is run, not left abstract (00_scope.md R8, notes/assumptions/10.md). All
quantities are unbounded natural numbers; `>>>` drops low bits. -/

namespace Sys2Proof.Machine

/-- The loop of `Log2Fix` (42_health_monitor_ops.md R153): `left` iterations are still to run, so the
iteration at hand (number `32 - left + 1` of 32) adds `2^(left - 1)`. -/
def log2Loop : (left x f : Nat) → Nat
  | 0, _, f => f
  | left + 1, x, f =>
    let sq := (x * x) >>> Config.guardBits
    if 2 ^ (Config.guardBits + 1) ≤ sq then log2Loop left (sq >>> 1) (f + 2 ^ left)
    else log2Loop left sq f

/-- `Log2Fix(m)` (42_health_monitor_ops.md R153), 32 fraction bits. Irreducible, so that
no proof unfolds the loop by accident. -/
@[irreducible] def log2Fix (m : Nat) : Nat :=
  let e := Nat.log2 m
  e * 2 ^ 32 + log2Loop 32 (m * 2 ^ (Config.guardBits - e)) 0

/-- `Surprise(c, n)` (42_health_monitor_ops.md R152), in units of 2^-32 bit. -/
def surprise (c n : Nat) : Nat :=
  if c = 0 then 2 ^ 32 else log2Fix n - log2Fix c

end Sys2Proof.Machine
end

