-- ==== Sys2Proof/Machine/Monitor.lean ====
section
/-! DEFINITION. The monitor step and the monitor commands (42_health_monitor_ops.md). -/

namespace Sys2Proof.Machine

/-- `CNT[h][b]` of one context (10_state.md R30). -/
def Counters.get (k : Counters) : Bool → BitVec 64
  | false => k.zeros
  | true  => k.ones

/-- One more observation of `b` in this context (42_health_monitor_ops.md R156). -/
def Counters.bump (k : Counters) : Bool → Counters
  | false => { k with zeros := k.zeros + 1 }
  | true  => { k with ones := k.ones + 1 }

/-- `n = CNT[h][0] + CNT[h][1]`, exact (42_health_monitor_ops.md R156, R165(c)). -/
def Counters.visits (k : Counters) : Nat := k.zeros.toNat + k.ones.toNat

/-- The counters of context `h`. -/
def Monitor.context (m : Monitor) (h : BitVec 7) : Counters := m.cnt[h.toNat]'h.isLt

/-- `MonitorBit(b)` (42_health_monitor_ops.md R156): the surprise is taken from the counts before the
observed bit is counted; the new bit enters the history at bit 0. -/
def monitorBit (m : Monitor) (b : Bool) : Monitor :=
  let k := m.context m.hist
  { cnt := m.cnt.set m.hist.toNat (k.bump b) m.hist.isLt
    hist := (m.hist <<< 1) ||| (BitVec.ofBool b).setWidth 7
    eSum := m.eSum + BitVec.ofNat 128 (surprise (k.get b).toNat k.visits)
    totBits := m.totBits + 1 }

/-- The 8 bits of a byte in the order the monitor takes them, bit 7 first (20_memory.md R62). -/
def bitsOf (data : Byte) : List Bool := [7, 6, 5, 4, 3, 2, 1, 0].map data.getLsbD

/-- `MonitorByte(data)` (42_health_monitor_ops.md R156). -/
def monitorByte (data : Byte) (m : Monitor) : Monitor := (bitsOf data).foldl monitorBit m

/-- The entropy estimate, 32 fraction bits, 0 if there is no data (42_health_monitor_ops.md R162). -/
def Monitor.estimate (m : Monitor) : Nat :=
  if m.totBits.toNat = 0 then 0 else m.eSum.toNat / m.totBits.toNat

/-- `PUSH.H data` (42_health_monitor_ops.md R150). -/
def execPushH (data : Byte) (s : State) : Host.Outcome State Fault Refusal :=
  if s.monitor.saturated then raise .errCntSat s
  else respondOk 0 { s with monitor := monitorByte data s.monitor }

/-- `HEALTHY` (42_health_monitor_ops.md R160). -/
def execHealthy (s : State) : Host.Outcome State Fault Refusal :=
  respondOk (if s.isHealthy then 1 else 0) s

/-- `ENTROPY` (42_health_monitor_ops.md R162). -/
def execEntropy (s : State) : Host.Outcome State Fault Refusal :=
  respondOk (BitVec.ofNat 64 s.monitor.estimate) s

end Sys2Proof.Machine
end

