-- ==== Sys2Proof/Machine/Operands.lean ====
section
/-! DEFINITION. The operands of the system commands: the CSR map (10_state.md R45), reading a register
(43_system_ops.md R180) and writing one (R181). The byte operand of a push needs no assembly
(30_encoding.md R83). -/

namespace Sys2Proof.Machine

/-- The register of a number, if the number names one (10_state.md R45). -/
def csrOfNumber (n : Byte) : Option Csr :=
  if n = 0x00 then some .target
  else if n = 0x01 then some .tolerance
  else if n = 0x02 then some .window
  else if n = 0x10 then some .totBits
  else if n = 0x11 then some .eSumLo
  else if n = 0x12 then some .eSumHi
  else if n = 0x13 then some .hist
  else if n = 0x20 then some .chCnt
  else if n = 0x21 then some .poolCnt
  else none

/-- The number of a register (10_state.md R45). -/
def csrNumber : Csr → Byte
  | .target    => 0x00
  | .tolerance => 0x01
  | .window    => 0x02
  | .totBits   => 0x10
  | .eSumLo    => 0x11
  | .eSumHi    => 0x12
  | .hist      => 0x13
  | .chCnt     => 0x20
  | .poolCnt   => 0x21

/-- `POOLCNT = 2048 - POOLRD` (10_state.md R28). -/
def Whitener.poolCnt (w : Whitener) : Nat := 2048 - w.poolRd.val

/-- The 64-bit value a register reads as, zeros above its own width (43_system_ops.md R180). -/
def csrRead (r : Csr) (s : State) : Word64 :=
  match r with
  | .target    => s.config.target.setWidth 64
  | .tolerance => s.config.tolerance.setWidth 64
  | .window    => s.config.window
  | .totBits   => s.monitor.totBits
  | .eSumLo    => s.monitor.eSum.extractLsb' 0 64
  | .eSumHi    => s.monitor.eSum.extractLsb' 64 64
  | .hist      => s.monitor.hist.setWidth 64
  | .chCnt     => BitVec.ofNat 64 s.whitener.chCnt.val
  | .poolCnt   => BitVec.ofNat 64 s.whitener.poolCnt

/-- The configuration after writing `value`, or `none` where the write is refused: a value too wide
for `TARGET` or `TOLERANCE`, or a read-only register (43_system_ops.md R181). -/
def csrWrite (r : Csr) (value : Word64) (c : ConfigRegs) : Option ConfigRegs :=
  match r with
  | .target    => if 2 ^ 32 ≤ value.toNat then none else some { c with target := value.setWidth 32 }
  | .tolerance => if 2 ^ 32 ≤ value.toNat then none else some { c with tolerance := value.setWidth 32 }
  | .window    => some { c with window := value }
  | .totBits | .eSumLo | .eSumHi | .hist | .chCnt | .poolCnt => none

end Sys2Proof.Machine
end

