-- ==== Sys2Proof/Machine/System.lean ====
section
/-! DEFINITION. The system commands (43_system_ops.md). -/

namespace Sys2Proof.Machine

/-- `CSRR csr` (43_system_ops.md R180). -/
def execCsrr (csr : Byte) (s : State) : Host.Outcome State Fault Refusal :=
  match csrOfNumber csr with
  | some r => respondOk (csrRead r s) s
  | none => raise .errCsr s

/-- `CSRW csr, value` (43_system_ops.md R181). -/
def execCsrw (csr : Byte) (value : Word64) (s : State) : Host.Outcome State Fault Refusal :=
  match (csrOfNumber csr).bind fun r => csrWrite r value s.config with
  | some c => respondOk 0 { s with config := c }
  | none => raise .errCsr s

end Sys2Proof.Machine
end

