-- ==== Sys2Proof/Machine/Sponge.lean ====
section
/-! DEFINITION. The sponge kernel (41_sponge_kernel.md): Keccak-f[1600] (R121 to R125), `AbsorbBytes`
(R126), `PadCopy` (R127) and `Squeeze2048` (R128). All functions are pure. Which sponge the hardware
uses is the spec's decision D1 (notes/assumptions/11.md); the whitener's commands use only
`Sponge.zero`, `absorbBytes` and `squeeze2048`, the interface of R120. -/

namespace Sys2Proof.Machine

/-- The 200 bytes of a sponge state (10_state.md R22). -/
abbrev SpongeBytes := Vector Byte 200

/-- The 25 lanes `A[x][y]` as a list, lane `A[x][y]` at place `5*y + x` (10_state.md R23). -/
abbrev Lanes := List Lane

/-- `A[x][y]`, indices modulo 5 (R121). -/
def lane (A : Lanes) (x y : Nat) : Lane := A.getD (5 * (y % 5) + x % 5) 0

/-- The 25 lanes with `A[x][y] = f x y` for `x, y` in 0..4. -/
def lanesBy (f : Nat → Nat → Lane) : Lanes := (List.range 25).map fun i => f (i % 5) (i / 5)

/-- Lane `A[x][y]` of a byte state: the little-endian integer in `S[8*(5*y+x)..8*(5*y+x)+7]`
(10_state.md R23). -/
def laneOfBytes (S : SpongeBytes) (x y : Nat) : Lane :=
  BitVec.ofNat 64 (((List.finRange 8).map fun k =>
    (S[8 * (5 * (y % 5) + x % 5) + k.val]'(by omega)).toNat * 2 ^ (8 * k.val)).sum)

/-- The lane view of a byte state (10_state.md R23). -/
def lanesOfBytes (S : SpongeBytes) : Lanes := lanesBy (laneOfBytes S)

/-- The byte state with this lane view: byte `8*(5*y+x)+k` is bits `8k+7..8k` of `A[x][y]`
(10_state.md R23). -/
def bytesOfLanes (A : Lanes) : SpongeBytes :=
  Vector.ofFn fun j => (lane A (j.val / 8 % 5) (j.val / 40)).extractLsb' (8 * (j.val % 8)) 8

/-- Row `x` of the table of rotation offsets, its columns `y = 0..4` (41_sponge_kernel.md R123). -/
def rotationRow : Nat → List Nat
  | 0 => [0, 36, 3, 41, 18]
  | 1 => [1, 44, 10, 45, 2]
  | 2 => [62, 6, 43, 15, 61]
  | 3 => [28, 55, 25, 21, 56]
  | _ => [27, 20, 39, 8, 14]

/-- `r[x][y]`, indices modulo 5 (41_sponge_kernel.md R123). -/
def rotationOffset (x y : Nat) : Nat := (rotationRow (x % 5)).getD (y % 5) 0

/-- The table of 41_sponge_kernel.md R125 as it is printed: row `ir` holds `RC[ir]` and `RC[ir + 12]`. -/
def roundConstantRows : List (Lane × Lane) :=
  [(0x0000000000000001, 0x000000008000808B),
   (0x0000000000008082, 0x800000000000008B),
   (0x800000000000808A, 0x8000000000008089),
   (0x8000000080008000, 0x8000000000008003),
   (0x000000000000808B, 0x8000000000008002),
   (0x0000000080000001, 0x8000000000000080),
   (0x8000000080008081, 0x000000000000800A),
   (0x8000000000008009, 0x800000008000000A),
   (0x000000000000008A, 0x8000000080008081),
   (0x0000000000000088, 0x8000000000008080),
   (0x0000000080008009, 0x0000000080000001),
   (0x000000008000000A, 0x8000000080008008)]

/-- The round constants `RC[0..23]`: the table's left column, then its right one (41_sponge_kernel.md
R125). -/
def roundConstants : List Lane := roundConstantRows.map Prod.fst ++ roundConstantRows.map Prod.snd

/-- `C[x]` of step theta (41_sponge_kernel.md R122). -/
def thetaC (A : Lanes) (x : Nat) : Lane :=
  lane A x 0 ^^^ lane A x 1 ^^^ lane A x 2 ^^^ lane A x 3 ^^^ lane A x 4

/-- `D[x]` of step theta (41_sponge_kernel.md R122). -/
def thetaD (A : Lanes) (x : Nat) : Lane := thetaC A (x + 4) ^^^ (thetaC A (x + 1)).rotateLeft 1

/-- Step theta (41_sponge_kernel.md R122). -/
def theta (A : Lanes) : Lanes := lanesBy fun x y => lane A x y ^^^ thetaD A x

/-- Steps rho and pi: `B[y][2x+3y] = rol64(A[x][y], r[x][y])` (41_sponge_kernel.md R123). Written from
the place written to: lane `B[x'][y']` comes from `y = x'` and `x = x' + 3y'` modulo 5
(notes/assumptions/20.md). -/
def rhoPi (A : Lanes) : Lanes :=
  lanesBy fun x y => (lane A (x + 3 * y) x).rotateLeft (rotationOffset (x + 3 * y) x)

/-- Step chi (41_sponge_kernel.md R124). -/
def chi (B : Lanes) : Lanes :=
  lanesBy fun x y => lane B x y ^^^ (~~~(lane B (x + 1) y) &&& lane B (x + 2) y)

/-- Step iota with round constant `rc` (41_sponge_kernel.md R125). -/
def iota (rc : Lane) (A : Lanes) : Lanes :=
  lanesBy fun x y => if x = 0 ∧ y = 0 then lane A x y ^^^ rc else lane A x y

/-- One round of Keccak-f (41_sponge_kernel.md R121). -/
def keccakRound (A : Lanes) (rc : Lane) : Lanes := iota rc (chi (rhoPi (theta A)))

/-- The 24 rounds, in order (41_sponge_kernel.md R121). -/
def keccakLanes (A : Lanes) : Lanes := roundConstants.foldl keccakRound A

/-- `KeccakF(S)` (41_sponge_kernel.md R121). Irreducible, like the two functions that run
it, so that no proof unfolds the permutation by accident: the equations and the kernel's evaluation
stay. -/
@[irreducible] def keccakF (S : SpongeBytes) : SpongeBytes := bytesOfLanes (keccakLanes (lanesOfBytes S))

/-- One byte of `AbsorbBytes` (41_sponge_kernel.md R126). -/
def absorbByte (sp : Sponge) (b : Byte) : Sponge :=
  let S := sp.bytes.set sp.absPos.val (sp.bytes[sp.absPos.val] ^^^ b)
  if h : sp.absPos.val + 1 < 136 then { bytes := S, absPos := ⟨sp.absPos.val + 1, h⟩ }
  else { bytes := keccakF S, absPos := 0 }

/-- `AbsorbBytes((S, p), m)` (41_sponge_kernel.md R126). -/
@[irreducible] def absorbBytes (sp : Sponge) (m : List Byte) : Sponge := m.foldl absorbByte sp

/-- `PadCopy(S, p)` (41_sponge_kernel.md R127): the two XORs one after the other, so that both hit byte
135 when `p = 135`. -/
def padCopy (sp : Sponge) : SpongeBytes :=
  let T := sp.bytes.set sp.absPos.val (sp.bytes[sp.absPos.val] ^^^ 0x1F)
  T.set 135 (T[135] ^^^ 0x80)

/-- `blocks` blocks of 136 bytes, permuting after each, then the first 8 bytes of one more
(41_sponge_kernel.md R128). -/
def squeezeFrom (T : SpongeBytes) : Nat → List Byte
  | 0 => T.toList.take 8
  | blocks + 1 => T.toList.take 136 ++ squeezeFrom (keccakF T) blocks

/-- `Squeeze2048(S, p)` (41_sponge_kernel.md R128). -/
@[irreducible] def squeeze2048 (sp : Sponge) : List Byte := squeezeFrom (keccakF (padCopy sp)) 15

end Sys2Proof.Machine
end

