-- ==== Sys2Proof/Machine/Whitener.lean ====
section
/-! DEFINITION. The whitener commands and the whitener round (40_whitener_ops.md). -/

namespace Sys2Proof.Machine

/-- `Round()` (40_whitener_ops.md R104). -/
def round (w : Whitener) : Whitener :=
  let sp := absorbBytes w.sponge (w.chunk.firstBytes Config.chunkBytes)
  { w with sponge := sp, pool := Memory.ofBytes 0 (squeeze2048 sp), poolRd := 0, chCnt := 0 }

/-- Gathering one raw byte, and the round when it is the 256th (40_whitener_ops.md R102). -/
def pushByte (data : Byte) (w : Whitener) : Whitener :=
  let w' := { w with chunk := w.chunk.write w.chCnt.val data }
  if h : w.chCnt.val + 1 < 256 then { w' with chCnt := ⟨w.chCnt.val + 1, h⟩ } else round w'

/-- `PUSH.W data` (40_whitener_ops.md R102). -/
def execPushW (data : Byte) (s : State) : Host.Outcome State Fault Refusal :=
  if s.whitener.poolBusy then raise .errPoolBusy s
  else respondOk 0 { s with whitener := pushByte data s.whitener }

/-- `PUSH.WH data` (40_whitener_ops.md R103): both guards before any write, pool busy first. -/
def execPushWH (data : Byte) (s : State) : Host.Outcome State Fault Refusal :=
  if s.whitener.poolBusy then raise .errPoolBusy s
  else if s.monitor.saturated then raise .errCntSat s
  else respondOk 0
    { s with monitor := monitorByte data s.monitor, whitener := pushByte data s.whitener }

/-- `RDPOOL` (40_whitener_ops.md R106). -/
def execRdpool (s : State) : Host.Outcome State Fault Refusal :=
  if h : s.whitener.poolRd.val = 2048 then raise .errPoolEmpty s
  else
    respondOk ((s.whitener.pool.read s.whitener.poolRd.val).setWidth 64)
      { s with whitener := { s.whitener with poolRd := ⟨s.whitener.poolRd.val + 1, by omega⟩ } }

/-- `DISCARD` (40_whitener_ops.md R108). The gathered bytes become undefined; they stay listed and
nothing reads them (DESIGN CHOICE, notes/assumptions/6.md). -/
def execDiscard (s : State) : Host.Outcome State Fault Refusal :=
  respondOk 0 { s with whitener := { s.whitener with chCnt := 0 } }

end Sys2Proof.Machine
end

