-- ==== Sys2Proof/Machine/Dispatch.lean ====
section
/-! DEFINITION. One arm per command (30_encoding.md R84). -/

namespace Sys2Proof.Machine

def exec (i : Instr) (s : State) : Host.Outcome State Fault Refusal :=
  match i with
  | .pushW data => Sys2Proof.Machine.execPushW data s
  | .pushH data => Sys2Proof.Machine.execPushH data s
  | .pushWH data => Sys2Proof.Machine.execPushWH data s
  | .rdpool => Sys2Proof.Machine.execRdpool s
  | .discard => Sys2Proof.Machine.execDiscard s
  | .healthy => Sys2Proof.Machine.execHealthy s
  | .entropy => Sys2Proof.Machine.execEntropy s
  | .csrr csr => Sys2Proof.Machine.execCsrr csr s
  | .csrw csr value => Sys2Proof.Machine.execCsrw csr value s

end Sys2Proof.Machine
end

