-- ==== Sys2Proof/Machine/Step.lean ====
section
/-! DEFINITION. One step of the machine: the next event at the port is taken and answered
(00_scope.md R10, 20_memory.md R66). -/

namespace Sys2Proof.Machine

/-- The block takes the oldest event the host presents. A command is sampled once, decoded and
executed as one atomic step with one response; a word that is no command is answered `ERR_ILLEGAL`
(30_encoding.md R80, R86); `RST` resets the block (70_reset_and_hazards.md R211); with nothing
presented the block waits. -/
def step (s : State) : Host.Outcome State Fault Refusal :=
  match s.inbox with
  | [] => idle s
  | .reset :: rest => .next (assertReset { s with inbox := rest })
  | .command c :: rest =>
    match decode c.cmd c.wdata with
    | some i => exec i { s with inbox := rest }
    | none => illegalCommand { s with inbox := rest }

/-- The host presents, as the very next event, the command whose word is `w` (its `nbits` bits) with
`WDATA = 0`. The block stores no program (00_scope.md R3): this stands for the host issuing the command
(notes/assumptions/3.md). -/
def State.withFetchWord (s : State) (nbits w : Nat) : State :=
  s.present (.command { cmd := BitVec.ofNat 16 (w % 2 ^ nbits), wdata := 0 })

end Sys2Proof.Machine
end

