-- ==== Sys2Proof/Machine/HostProcedures.lean ====
section
/-! DEFINITION. What the spec builds from the nine commands on the host's side: the pseudo-commands of
30_encoding.md R89 and the host procedure of 40_whitener_ops.md R110 that equals the source's
`read(buf)`. The block knows nothing of them (notes/assumptions/18.md). -/

namespace Sys2Proof.Machine

/-- The host issues one command and waits for its response (20_memory.md R66). `exec` answers a next
state for every command, so the other two cases do not arise. -/
def State.issue (s : State) (i : Instr) : State :=
  match exec i s with
  | .next t => t
  | .fault _ => s
  | .refused _ => s

/-- The status of the newest response, if there is one. -/
def State.lastStatus (s : State) : Option Status := s.lastResponse.map Response.status

/-- Commands issued one after the other, stopping after the first response that is not `OK`
(30_encoding.md R89). What is reported is the newest response. -/
def issueAll : List Instr → State → State
  | [], s => s
  | i :: rest, s =>
    let t := s.issue i
    if t.lastStatus = some .ok then issueAll rest t else t

/-- The pseudo-commands of 30_encoding.md R89. -/
inductive Pseudo where
  | feed (data : Byte)
  | add (first : Byte) (more : List Byte)
  | chunkW (bytes : Vector Byte 256)
  | chunkWH (bytes : Vector Byte 256)
  | rdpoolN (n : Nat)
  | rdESum
  deriving DecidableEq, Repr

/-- The expansion of a pseudo-command (30_encoding.md R89). -/
def Pseudo.expand : Pseudo → List Instr
  | .feed data       => [.pushWH data]
  | .add first more  => (first :: more).map .pushH
  | .chunkW bytes    => bytes.toList.map .pushW
  | .chunkWH bytes   => bytes.toList.map .pushWH
  | .rdpoolN n       => List.replicate n .rdpool
  | .rdESum          => [.csrr 0x11, .csrr 0x12]

/-- A pseudo-command run by the host (30_encoding.md R89). -/
def Pseudo.run (p : Pseudo) (s : State) : State := issueAll p.expand s

/-- The result of `RDESUM`, `RDATA_hi * 2^64 + RDATA_lo`, from the newest two responses
(30_encoding.md R89). -/
def State.rdESumResult (s : State) : Option Nat :=
  match s.outbox with
  | hi :: lo :: _ => some (hi.rdata.toNat * 2 ^ 64 + lo.rdata.toNat)
  | _ => none

/-- What `rawRead(256)` may answer: 256 raw bytes, or a failure (40_whitener_ops.md R110). -/
abbrev RawFetch := Option (Vector Byte 256)

/-- The outcome of `HostRead`: the bytes returned, or `none` for the error of a failed call, which
delivers nothing (40_whitener_ops.md R111), with the state the block is left in. -/
structure HostReadResult where
  delivered : Option (List Byte)
  state     : State
  deriving DecidableEq, Repr

/-- The loop of `HostRead` (40_whitener_ops.md R110): `want` bytes are still to be read, `raw` is what
successive raw fetches answer (an exhausted list is a failed fetch). `push` is `PUSH.WH`, or `PUSH.W`
where the monitor is fed elsewhere. `fuel` bounds the passes: each consumes a wanted byte or a fetch. -/
def hostReadLoop (push : Byte → Instr) :
    (fuel want : Nat) → (out : List Byte) → (raw : List RawFetch) → State → HostReadResult
  | _, 0, out, _, s => { delivered := some out, state := s }
  | 0, _ + 1, _, _, s => { delivered := none, state := s }
  | fuel + 1, want + 1, out, raw, s =>
    let t := s.issue .rdpool
    match t.lastResponse with
    | some { status := .ok, rdata := d } => hostReadLoop push fuel want (out ++ [d.setWidth 8]) raw t
    | _ =>
      match raw with
      | some bytes :: rest =>
        hostReadLoop push fuel (want + 1) out rest
          (bytes.toList.foldl (fun u b => u.issue (push b)) t)
      | none :: _ => { delivered := none, state := t.issue .discard }
      | [] => { delivered := none, state := t.issue .discard }

/-- `HostRead(n)` (40_whitener_ops.md R110). -/
def hostRead (push : Byte → Instr) (n : Nat) (raw : List RawFetch) (s : State) : HostReadResult :=
  hostReadLoop push (n + raw.length) n [] raw s

end Sys2Proof.Machine
end

