-- ==== Sys2Proof/Safety.lean ====
section
/-! DEFINITION. What counts as a safe state and a faithful run, in the terms the statements use: the
invariants of 10_state.md R29, R32 and R34, the equivalence of 93_implementation_defined.md U2, the
histories that stand beside the state (10_state.md R49), and the generators of 41_sponge_kernel.md
R131. Nothing here is hardware state and no step reads it. -/

namespace Sys2Proof.Machine

/-! ### Invariants -/

/-- 10_state.md R29: raw bytes gather only while the pool is empty. -/
abbrev Whitener.GathersOnlyWhenEmpty (w : Whitener) : Prop :=
  0 < w.chCnt.val → w.poolRd.val = 2048

/-- The two byte stores are in canonical form and inside their sizes (10_state.md R25, R27). -/
abbrev Whitener.StoresCanonical (w : Whitener) : Prop :=
  w.chunk.wf = true ∧ w.chunk.within 256 = true ∧ w.pool.wf = true ∧ w.pool.within 2048 = true

/-- The sum of all 256 counters (10_state.md R34). -/
def Monitor.total (m : Monitor) : Nat := (m.cnt.toList.map Counters.visits).sum

/-- 10_state.md R34, and the bound of R32 in the sharper form of 42_health_monitor_ops.md R155: the
counters sum to `TOTBITS`; `TOTBITS` counts whole bytes; no counter exceeds it; the first bit costs one
full bit; no bit costs `2^38` units or more. -/
abbrev Monitor.Consistent (m : Monitor) : Prop :=
  m.total = m.totBits.toNat ∧
  m.totBits.toNat % 8 = 0 ∧
  (∀ k ∈ m.cnt.toList, k.zeros.toNat ≤ m.totBits.toNat ∧ k.ones.toNat ≤ m.totBits.toNat) ∧
  (0 < m.totBits.toNat → 2 ^ 32 ≤ m.eSum.toNat) ∧
  m.eSum.toNat ≤ m.totBits.toNat * (2 ^ 38 - 1)

/-- Everything the spec promises of a reachable state (10_state.md R29, R32, R34). -/
abbrev State.Safe (s : State) : Prop :=
  s.whitener.GathersOnlyWhenEmpty ∧ s.whitener.StoresCanonical ∧ s.monitor.Consistent

/-! ### What a command can depend on -/

/-- The state elements are the same; only the port may differ (00_scope.md R14). -/
def State.SameUnits (s t : State) : Prop :=
  t.whitener = s.whitener ∧ t.monitor = s.monitor ∧ t.config = s.config

/-- Equality up to the bytes that hold no value: `CHUNK` compared below `CHCNT`, `POOL` from `POOLRD`
up, everything else whole (93_implementation_defined.md U2). -/
def Whitener.SameHeld (v w : Whitener) : Prop :=
  w.sponge = v.sponge ∧ w.chCnt = v.chCnt ∧ w.poolRd = v.poolRd ∧
  (∀ a, a < v.chCnt.val → w.chunk.read a = v.chunk.read a) ∧
  (∀ a, v.poolRd.val ≤ a → a < 2048 → w.pool.read a = v.pool.read a)

/-- `Whitener.SameHeld` with the rest of the machine equal. -/
def State.SameHeld (s t : State) : Prop :=
  s.whitener.SameHeld t.whitener ∧ t.monitor = s.monitor ∧ t.config = s.config ∧
  t.inbox = s.inbox ∧ t.outbox = s.outbox

/-- Two states that differ at most in what no command reads out: `S`, `ABSPOS`, `CHUNK`, `CNT`
(10_state.md R48). -/
def State.SameVisible (s t : State) : Prop :=
  t.whitener.chCnt = s.whitener.chCnt ∧ t.whitener.poolRd = s.whitener.poolRd ∧
  t.whitener.pool = s.whitener.pool ∧
  t.monitor.hist = s.monitor.hist ∧ t.monitor.eSum = s.monitor.eSum ∧
  t.monitor.totBits = s.monitor.totBits ∧ t.config = s.config

/-! ### The whitener's history (10_state.md R49, 40_whitener_ops.md R112) -/

/-- What the host has done to the whitener and got from it since reset, read off its commands and
their responses alone. -/
structure WhitenerHistory where
  /-- The raw bytes pushed since the chunk buffer was last empty, in push order (20_memory.md R61). -/
  gathered  : List Byte
  /-- The completed chunks `c1, ..., cN`, in order. -/
  chunks    : List (List Byte)
  /-- The bytes returned by successful `RDPOOL` commands, in order. -/
  delivered : List Byte
  deriving DecidableEq, Repr

/-- No command yet. -/
def WhitenerHistory.start : WhitenerHistory := { gathered := [], chunks := [], delivered := [] }

/-- One more raw byte: the 256th completes a chunk. -/
def WhitenerHistory.push (h : WhitenerHistory) (data : Byte) : WhitenerHistory :=
  if h.gathered.length + 1 = 256 then
    { h with gathered := [], chunks := h.chunks ++ [h.gathered ++ [data]] }
  else { h with gathered := h.gathered ++ [data] }

/-- The history after a command and its response. A refused command leaves it alone. -/
def WhitenerHistory.after (h : WhitenerHistory) (i : Instr) (r : Response) : WhitenerHistory :=
  if r.status = .ok then
    match i with
    | .pushW data  => h.push data
    | .pushWH data => h.push data
    | .discard     => { h with gathered := [] }
    | .rdpool      => { h with delivered := h.delivered ++ [r.rdata.setWidth 8] }
    | .pushH _     => h
    | .healthy     => h
    | .entropy     => h
    | .csrr _      => h
    | .csrw _ _    => h
  else h

/-- `Z_1 ++ Z_2 ++ ...` of the rounds that absorb these chunks from the sponge `sp` on
(40_whitener_ops.md R112). -/
def outputFrom (sp : Sponge) : List (List Byte) → List Byte
  | [] => []
  | c :: rest => squeeze2048 (absorbBytes sp c) ++ outputFrom (absorbBytes sp c) rest

/-- The whitener's whole output stream for the chunks absorbed since reset. -/
def outputStream (chunks : List (List Byte)) : List Byte := outputFrom Sponge.zero chunks

/-- `POOL[POOLRD..2047]`: the bytes not yet delivered (10_state.md R27). -/
def Whitener.undelivered (w : Whitener) : List Byte :=
  (List.range w.poolCnt).map fun j => w.pool.read (w.poolRd.val + j)

/-- The whitener is where this history leads (10_state.md R49, 20_memory.md R61, R64): the sponge has
absorbed the plain concatenation of the chunks, `CHUNK` holds the gathered bytes, and what was delivered
followed by what is undelivered is the output stream. -/
def WhitenerHistory.Tracks (h : WhitenerHistory) (w : Whitener) : Prop :=
  (∀ c ∈ h.chunks, c.length = 256) ∧
  w.sponge = absorbBytes Sponge.zero h.chunks.flatten ∧
  h.gathered = w.chunk.firstBytes w.chCnt.val ∧
  h.delivered ++ w.undelivered = outputStream h.chunks ∧
  w.GathersOnlyWhenEmpty

/-- One command issued by the host, and the history brought up to date with its response. -/
def recordCommand (p : State × WhitenerHistory) (i : Instr) : State × WhitenerHistory :=
  let t := p.1.issue i
  (t, match t.lastResponse with
    | some r => p.2.after i r
    | none => p.2)

/-- A run from reset (00_scope.md R10): the state it ends in and the whitener's history. -/
def runFromReset (commands : List Instr) : State × WhitenerHistory :=
  commands.foldl recordCommand (State.reset, WhitenerHistory.start)

/-! ### The byte a command carries (40_whitener_ops.md R102, R103; 42_health_monitor_ops.md R150) -/

/-- The byte a command pushes toward the whitener, if it pushes one. -/
def bytesToWhitener : Instr → List Byte
  | .pushW data  => [data]
  | .pushWH data => [data]
  | .pushH _     => []
  | .rdpool      => []
  | .discard     => []
  | .healthy     => []
  | .entropy     => []
  | .csrr _      => []
  | .csrw _ _    => []

/-- The byte a command pushes toward the monitor, if it pushes one. -/
def bytesToMonitor : Instr → List Byte
  | .pushH data  => [data]
  | .pushWH data => [data]
  | .pushW _     => []
  | .rdpool      => []
  | .discard     => []
  | .healthy     => []
  | .entropy     => []
  | .csrr _      => []
  | .csrw _ _    => []

/-! ### The monitor's history (10_state.md R30, R31; 42_health_monitor_ops.md R157, R158) -/

/-- The context a bit is seen in, given the bits before it, newest first: bit `k` of the context is
the bit `k + 1` places back, and zeros stand before the first bit (10_state.md R31,
42_health_monitor_ops.md R157). -/
def contextAfter (past : List Bool) : BitVec 7 :=
  BitVec.ofNat 7 (((List.range 7).map fun k => (past.getD k false).toNat * 2 ^ k).sum)

/-- How often the value `b` was observed while the history was `h` (10_state.md R30); bits newest
first. -/
def timesSeen (h : BitVec 7) (b : Bool) : List Bool → Nat
  | [] => 0
  | bit :: past => timesSeen h b past + if contextAfter past = h ∧ bit = b then 1 else 0

/-- The code length of a bit stream in units of `2^-32` bit: every bit is charged against the counts of
the bits before it (42_health_monitor_ops.md R158); bits newest first. -/
def codeLength : List Bool → Nat
  | [] => 0
  | bit :: past =>
    let h := contextAfter past
    codeLength past + surprise (timesSeen h bit past) (timesSeen h false past + timesSeen h true past)

/-- The bits shown to the monitor, newest first, after a command and its response. -/
def bitsAfter (past : List Bool) (i : Instr) (r : Response) : List Bool :=
  if r.status = .ok then
    match i with
    | .pushH data  => (bitsOf data).reverse ++ past
    | .pushWH data => (bitsOf data).reverse ++ past
    | .pushW _     => past
    | .rdpool      => past
    | .discard     => past
    | .healthy     => past
    | .entropy     => past
    | .csrr _      => past
    | .csrw _ _    => past
  else past

/-- The monitor is where this bit stream leads. -/
def Monitor.Tracks (past : List Bool) (m : Monitor) : Prop :=
  m.hist = contextAfter past ∧
  m.totBits.toNat = past.length ∧
  past.length % 8 = 0 ∧
  (∀ h b, ((m.context h).get b).toNat = timesSeen h b past) ∧
  m.eSum.toNat = codeLength past

/-! ### The generators of the sponge's tables (41_sponge_kernel.md R131) -/

/-- The walk `(x, y) <- (y, 2x + 3y)` from `(1, 0)`. -/
def rotationWalk : Nat → Nat × Nat
  | 0 => (1, 0)
  | t + 1 => ((rotationWalk t).2, (2 * (rotationWalk t).1 + 3 * (rotationWalk t).2) % 5)

/-- The register `R` after `t` steps from 1. -/
def lfsr : Nat → Nat
  | 0 => 1
  | t + 1 =>
    let r := 2 * lfsr t
    if r < 256 then r else r ^^^ 0x171

/-- `rc(t)`: bit 0 of the register after `t mod 255` steps. -/
def rcBit (t : Nat) : Bool := (lfsr (t % 255)).testBit 0

end Sys2Proof.Machine
end

