-- ==== Sys2Proof/Certificates/Slice0/Obligations.lean ====
section
/-! DEFINITION. The statements for the provers, in the order of the spec's files. Each docstring names
the rules of spec/ the statement formalises; a clause that rests on a choice of the model names the log
entry in notes/assumptions. -/

open Sys2Proof Sys2Proof.Machine

/-! ### Encoding (30_encoding.md) -/

/-- 30_encoding.md R85, last sentence: `encode` and the decoder are inverse to each other, with every
operand at every value. `WDATA` belongs to the encoding of `CSRW` alone. -/
def Obligations.DecodeAndEncodeAgree : Prop :=
  (∀ i : Instr, decode (encode i).cmd (encode i).wdata = some i) ∧
  (∀ w wdata i, decode w wdata = some i → (encode i).cmd = w) ∧
  (∀ w wdata csr value, decode w wdata = some (.csrw csr value) →
    (encode (.csrw csr value)).wdata = wdata)

/-- 30_encoding.md R84: a word selects the row for which `w AND mask = match`, the rows exclude each
other, and a word that selects no row is no command. -/
def Obligations.DecodeFollowsTheOpcodeMap : Prop :=
  ∀ (w : CmdWord) (wdata : Word64),
    (w &&& 0xFF00 = 0x1100 → decode w wdata = some (.pushW (w.setWidth 8))) ∧
    (w &&& 0xFF00 = 0x1200 → decode w wdata = some (.pushH (w.setWidth 8))) ∧
    (w &&& 0xFF00 = 0x1300 → decode w wdata = some (.pushWH (w.setWidth 8))) ∧
    (w &&& 0xFFFF = 0x2000 → decode w wdata = some .rdpool) ∧
    (w &&& 0xFFFF = 0x3000 → decode w wdata = some .discard) ∧
    (w &&& 0xFFFF = 0x4000 → decode w wdata = some .healthy) ∧
    (w &&& 0xFFFF = 0x5000 → decode w wdata = some .entropy) ∧
    (w &&& 0xFF00 = 0x6000 → decode w wdata = some (.csrr (w.setWidth 8))) ∧
    (w &&& 0xFF00 = 0x7000 → decode w wdata = some (.csrw (w.setWidth 8) wdata)) ∧
    (decode w wdata ≠ none →
      w &&& 0xFF00 ∈ ([0x1100, 0x1200, 0x1300, 0x6000, 0x7000] : List CmdWord) ∨
      w ∈ ([0x2000, 0x3000, 0x4000, 0x5000] : List CmdWord))

/-- 30_encoding.md R86: the illegal words are exactly those listed, by `op`, `sel` and `imm8` as numbers;
each is answered `ERR_ILLEGAL` with `RDATA = 0` and changes no state; 0x0000 and 0xFFFF are among them;
a CSR word whose number names no register is legal and is refused with `ERR_CSR`. -/
def Obligations.IllegalWordsAreExactlyTheListed : Prop :=
  (∀ (w : CmdWord) (wdata : Word64), decode w wdata = none ↔
    let op := w.toNat / 4096
    let sel := w.toNat / 256 % 16
    let imm8 := w.toNat % 256
    op = 0 ∨ 8 ≤ op ∨ (op = 1 ∧ (sel = 0 ∨ 4 ≤ sel)) ∨
    (2 ≤ op ∧ op ≤ 5 ∧ (sel ≠ 0 ∨ imm8 ≠ 0)) ∨ (6 ≤ op ∧ op ≤ 7 ∧ sel ≠ 0)) ∧
  (∀ (s : State) (c : Command) (rest : List PortEvent),
    s.inbox = .command c :: rest → decode c.cmd c.wdata = none →
    step s = .next { s with inbox := rest, outbox := { status := .errIllegal, rdata := 0 } :: s.outbox }) ∧
  (∀ wdata, decode 0x0000 wdata = none ∧ decode 0xFFFF wdata = none) ∧
  (∀ (csr : Byte) (wdata : Word64) (s : State), csrOfNumber csr = none →
    decode (0x6000 ||| csr.setWidth 16) wdata = some (.csrr csr) ∧
    decode (0x7000 ||| csr.setWidth 16) wdata = some (.csrw csr wdata) ∧
    exec (.csrr csr) s = .next { s with outbox := { status := .errCsr, rdata := 0 } :: s.outbox } ∧
    exec (.csrw csr wdata) s = .next { s with outbox := { status := .errCsr, rdata := 0 } :: s.outbox })

/-- 95_test_vectors.md E1 to E9, one word of every command, written out from 30_encoding.md R84: a sanity
statement. -/
def Obligations.WrittenOutWordsDecode : Prop :=
  decode 0x115A 0 = some (.pushW 0x5A) ∧ decode 0x12A5 0 = some (.pushH 0xA5) ∧
  decode 0x1300 0 = some (.pushWH 0x00) ∧ decode 0x2000 0 = some .rdpool ∧
  decode 0x3000 0 = some .discard ∧ decode 0x4000 0 = some .healthy ∧
  decode 0x5000 0 = some .entropy ∧ decode 0x6021 0 = some (.csrr 0x21) ∧
  decode 0x7002 0x10 = some (.csrw 0x02 0x10)

/-- 60_exceptions.md R192: whether a word is illegal is decided from the 16 bits alone, before any state
is read, and `WDATA` plays no part: in every state and with every `WDATA`, a word that decodes to no
command is answered `ERR_ILLEGAL`, and a word that decodes to one never is. -/
def Obligations.IllegalIsDecidedFromTheWordAlone : Prop :=
  ∀ (w : CmdWord) (a b : Word64) (s : State) (rest : List PortEvent),
    s.inbox = .command { cmd := w, wdata := b } :: rest →
    ∃ t r, step s = .next t ∧ t.outbox = r :: s.outbox ∧
      (r.status = .errIllegal ↔ decode w a = none) ∧
      (decode w a = none → r.rdata = 0 ∧ s.SameUnits t)

/-! ### Steps and responses (00_scope.md, 20_memory.md, 60_exceptions.md) -/

/-- 00_scope.md R10, 20_memory.md R66: when the command presented next decodes, the step is exactly that
command's execution, with the command taken off the port (the list of presented events is the model's
own field, notes/assumptions/1.md). -/
def Obligations.StepRunsTheDecodedCommand : Prop :=
  ∀ (s : State) (c : Command) (rest : List PortEvent) (i : Instr),
    s.inbox = .command c :: rest → decode c.cmd c.wdata = some i →
    step s = exec i { s with inbox := rest }

/-- 60_exceptions.md R205, 30_encoding.md R80: in every state the step answers a next state, and a command
gets exactly one response. That an idle block stays as it is and that `RST` leaves the port's lists are
the model's choices (notes/assumptions/2.md and 4.md). -/
def Obligations.EveryStepAnswers : Prop :=
  ∀ s : State, ∃ t, step s = .next t ∧
    (s.inbox = [] → t = s) ∧
    (∀ rest, s.inbox = .reset :: rest → t.inbox = rest ∧ t.outbox = s.outbox) ∧
    (∀ c rest, s.inbox = .command c :: rest → t.inbox = rest ∧ ∃ r, t.outbox = r :: s.outbox)

/-- 20_memory.md R71, 00_scope.md R10: commands take effect in the order issued, each completely before
the next. Running the commands a host presents, one step each, is issuing them one after the other (the
list of presented events is the model's own field, notes/assumptions/1.md). -/
def Obligations.CommandsTakeEffectInOrder : Prop :=
  ∀ (commands : List Instr) (s : State),
    s.inbox = commands.map (fun i => PortEvent.command (encode i)) →
    Host.Core.run core commands.length s = .next (commands.foldl State.issue { s with inbox := [] })

/-- 60_exceptions.md R191: a refused command, or a word that is no command, changes no element of state and
leaves no trace but its response, whose data is 0. -/
def Obligations.RefusalChangesNothing : Prop :=
  (∀ (i : Instr) (s : State), ∃ t r, exec i s = .next t ∧ t.outbox = r :: s.outbox ∧
    (r.status ≠ .ok → r.rdata = 0 ∧ t = { s with outbox := r :: s.outbox })) ∧
  (∀ (s : State) (c : Command) (rest : List PortEvent), s.inbox = .command c :: rest →
    decode c.cmd c.wdata = none →
    ∃ r : Response, r.rdata = 0 ∧ step s = .next { s with inbox := rest, outbox := r :: s.outbox })

/-- 60_exceptions.md R190 and R197: the one response of each command, which code it carries and when, with
the order of the two checks of `PUSH.WH`; an illegal word first of all; a refusal records nothing but its
response; and the numbers of the codes, none above 5. -/
def Obligations.EachRefusalHasItsCause : Prop :=
  (∀ (i : Instr) (s : State), ∃ t r, exec i s = .next t ∧ t.outbox = r :: s.outbox ∧
    (r.status ≠ .ok → r.rdata = 0 ∧ t = { s with outbox := r :: s.outbox }) ∧
    match i with
    | .pushW _  => r.status = if s.whitener.poolRd.val ≠ 2048 then .errPoolBusy else .ok
    | .pushH _  => r.status = if 2 ^ 64 - 9 < s.monitor.totBits.toNat then .errCntSat else .ok
    | .pushWH _ => r.status = if s.whitener.poolRd.val ≠ 2048 then .errPoolBusy
                     else if 2 ^ 64 - 9 < s.monitor.totBits.toNat then .errCntSat else .ok
    | .rdpool   => r.status = if s.whitener.poolRd.val = 2048 then .errPoolEmpty else .ok
    | .discard  => r.status = .ok
    | .healthy  => r.status = .ok
    | .entropy  => r.status = .ok
    | .csrr csr => r.status = if csr ∈ ([0x00, 0x01, 0x02, 0x10, 0x11, 0x12, 0x13, 0x20, 0x21] : List Byte)
                     then .ok else .errCsr
    | .csrw csr value =>
      r.status = if csr = 0x02 ∨ ((csr = 0x00 ∨ csr = 0x01) ∧ value.toNat < 2 ^ 32) then .ok else .errCsr) ∧
  (∀ (s : State) (c : Command) (rest : List PortEvent), s.inbox = .command c :: rest →
    decode c.cmd c.wdata = none →
    step s = .next { s with inbox := rest, outbox := { status := .errIllegal, rdata := 0 } :: s.outbox }) ∧
  (∀ st : Status, st.code.toNat ≤ 5) ∧
  Status.ok.code = 0 ∧ Status.errIllegal.code = 1 ∧ Status.errPoolEmpty.code = 2 ∧
  Status.errPoolBusy.code = 3 ∧ Status.errCntSat.code = 4 ∧ Status.errCsr.code = 5

/-- 30_encoding.md R82: `RDATA` is 0 on a refusal; on success it is the whitened byte, the health bit, the
entropy estimate or the register value with zeros above, and 0 for the other commands. -/
def Obligations.ResponseDataFollowsTheFormat : Prop :=
  ∀ (i : Instr) (s : State), ∃ t r, exec i s = .next t ∧ t.outbox = r :: s.outbox ∧
    (r.status ≠ .ok → r.rdata = 0) ∧
    (r.status = .ok →
      match i with
      | .pushW _  => r.rdata = 0
      | .pushH _  => r.rdata = 0
      | .pushWH _ => r.rdata = 0
      | .rdpool   => r.rdata.toNat = (s.whitener.pool.read s.whitener.poolRd.val).toNat
      | .discard  => r.rdata = 0
      | .healthy  => r.rdata.toNat = if s.isHealthy then 1 else 0
      | .entropy  => r.rdata = BitVec.ofNat 64 s.monitor.estimate
      | .csrr csr => ∃ reg, csrOfNumber csr = some reg ∧ r.rdata = csrRead reg s
      | .csrw _ _ => r.rdata = 0)

/-- 60_exceptions.md R193: "pool empty" and "pool busy" exclude each other: in every state either `RDPOOL`
answers `ERR_POOL_EMPTY` and `PUSH.W` is accepted, or `RDPOOL` delivers and `PUSH.W` answers
`ERR_POOL_BUSY`. -/
def Obligations.PoolEmptyAndPoolBusyExclude : Prop :=
  ∀ (s : State) (data : Byte), ∃ t u, exec .rdpool s = .next t ∧ exec (.pushW data) s = .next u ∧
    ((s.whitener.poolRd.val = 2048 ∧ t.lastStatus = some .errPoolEmpty ∧ u.lastStatus = some .ok) ∨
     (s.whitener.poolRd.val ≠ 2048 ∧ t.lastStatus = some .ok ∧ u.lastStatus = some .errPoolBusy))

/-- 60_exceptions.md R194: once the bit count is saturated, no command changes the monitor; every monitor
push is refused; `HEALTHY`, `ENTROPY` and the three whitener commands go on. -/
def Obligations.SaturationIsPermanent : Prop :=
  ∀ s : State, 2 ^ 64 - 9 < s.monitor.totBits.toNat →
    (∀ i, ∃ t, exec i s = .next t ∧ t.monitor = s.monitor) ∧
    (∀ data, ∃ t, exec (.pushH data) s = .next t ∧ t.lastStatus = some .errCntSat) ∧
    (∀ data, ∃ t, exec (.pushWH data) s = .next t ∧
      (t.lastStatus = some .errCntSat ∨ t.lastStatus = some .errPoolBusy)) ∧
    (∃ t, exec .healthy s = .next t ∧ t.lastStatus = some .ok) ∧
    (∃ t, exec .entropy s = .next t ∧ t.lastStatus = some .ok) ∧
    (∀ data, s.whitener.poolRd.val = 2048 → ∃ t, exec (.pushW data) s = .next t ∧
      t.lastStatus = some .ok ∧ t.whitener = pushByte data s.whitener) ∧
    (s.whitener.poolRd.val ≠ 2048 → ∃ t, exec .rdpool s = .next t ∧ t.lastStatus = some .ok) ∧
    (∃ t, exec .discard s = .next t ∧ t.lastStatus = some .ok)

/-! ### Whitener commands (40_whitener_ops.md) -/

/-- 40_whitener_ops.md R101: while the pool holds undelivered bytes, a push toward the whitener is refused
with `ERR_POOL_BUSY` and changes nothing. -/
def Obligations.WhitenerPushRefusedWhilePoolHolds : Prop :=
  ∀ (data : Byte) (s : State), s.whitener.poolRd.val ≠ 2048 →
    exec (.pushW data) s = .next { s with outbox := { status := .errPoolBusy, rdata := 0 } :: s.outbox } ∧
    exec (.pushWH data) s = .next { s with outbox := { status := .errPoolBusy, rdata := 0 } :: s.outbox }

/-- 40_whitener_ops.md R102, the first 255 pushes of a chunk: `PUSH.W` stores its byte at `CHUNK[CHCNT]`,
adds one to `CHCNT`, and leaves every other byte and every other element alone. That a byte of `CHUNK`
above `CHCNT` or of `POOL`, which hold no value here (10_state.md R25, R27), reads as before is the
model's choice (notes/assumptions/5.md and 6.md). -/
def Obligations.PushWGathersOneByte : Prop :=
  ∀ (data : Byte) (s : State), s.whitener.poolRd.val = 2048 → s.whitener.chCnt.val < 255 →
    s.whitener.StoresCanonical →
    ∃ t, exec (.pushW data) s = .next t ∧
      t.whitener.chCnt.val = s.whitener.chCnt.val + 1 ∧
      t.whitener.chunk.read s.whitener.chCnt.val = data ∧
      (∀ a, a ≠ s.whitener.chCnt.val → t.whitener.chunk.read a = s.whitener.chunk.read a) ∧
      (∀ a, t.whitener.pool.read a = s.whitener.pool.read a) ∧
      t.whitener.sponge = s.whitener.sponge ∧ t.whitener.poolRd = s.whitener.poolRd ∧
      t.monitor = s.monitor ∧ t.config = s.config ∧ t.inbox = s.inbox ∧
      t.outbox = { status := .ok, rdata := 0 } :: s.outbox

/-- 40_whitener_ops.md R102 and R104, the 256th push of a chunk: before it responds, the 256 bytes are
absorbed, the pool is refilled with the squeeze of a copy of the new sponge, and both positions are 0.
That the bytes of `CHUNK` other than 255 read as before after the round is the model's choice
(notes/assumptions/6.md, `round`): `CHCNT` is 0 then and the spec gives none of them a value. -/
def Obligations.PushWOfTheLastByteRunsTheRound : Prop :=
  ∀ (data : Byte) (s : State), s.whitener.poolRd.val = 2048 → s.whitener.chCnt.val = 255 →
    s.whitener.StoresCanonical →
    ∃ t, exec (.pushW data) s = .next t ∧
      t.whitener.sponge = absorbBytes s.whitener.sponge (s.whitener.chunk.firstBytes 255 ++ [data]) ∧
      (∀ a, a < 2048 → t.whitener.pool.read a = (squeeze2048 t.whitener.sponge).getD a 0) ∧
      t.whitener.poolRd.val = 0 ∧ t.whitener.chCnt.val = 0 ∧
      (∀ a, a ≠ 255 → t.whitener.chunk.read a = s.whitener.chunk.read a) ∧
      t.monitor = s.monitor ∧ t.config = s.config ∧ t.inbox = s.inbox ∧
      t.outbox = { status := .ok, rdata := 0 } :: s.outbox

/-- 40_whitener_ops.md R103: when neither unit would refuse, `PUSH.WH d` has exactly the effect of
`PUSH.H d` followed by `PUSH.W d`, in one command with one response; the other order gives the same. If
either unit would refuse, neither sees the byte, and the pool is tested first. -/
def Obligations.PushWHFeedsBothUnits : Prop :=
  (∀ data : Byte, (encode (.pushWH data)).cmd = 0x1300 ||| data.setWidth 16) ∧
  (∀ (data : Byte) (s : State), s.whitener.poolRd.val = 2048 → s.monitor.totBits.toNat ≤ 2 ^ 64 - 9 →
    ∃ t u v u' v', exec (.pushWH data) s = .next t ∧
      exec (.pushH data) s = .next u ∧ exec (.pushW data) u = .next v ∧
      exec (.pushW data) s = .next u' ∧ exec (.pushH data) u' = .next v' ∧
      v.SameUnits t ∧ v'.SameUnits t ∧
      t.monitor = monitorByte data s.monitor ∧ t.whitener = pushByte data s.whitener ∧
      t.config = s.config ∧ t.inbox = s.inbox ∧ t.outbox = { status := .ok, rdata := 0 } :: s.outbox) ∧
  (∀ (data : Byte) (s : State), s.whitener.poolRd.val ≠ 2048 →
    exec (.pushWH data) s = .next { s with outbox := { status := .errPoolBusy, rdata := 0 } :: s.outbox }) ∧
  (∀ (data : Byte) (s : State), s.whitener.poolRd.val = 2048 → 2 ^ 64 - 9 < s.monitor.totBits.toNat →
    exec (.pushWH data) s = .next { s with outbox := { status := .errCntSat, rdata := 0 } :: s.outbox })

/-- 40_whitener_ops.md R106: `RDPOOL` answers the byte at `POOLRD`, zeros above, and advances `POOLRD` by
one; it writes nothing else. On an exhausted pool it is refused. The read that empties the pool makes
whitener pushes acceptable again. That a byte of `POOL` already delivered, the one just delivered among
them, still reads as before is the model's choice (notes/assumptions/6.md, `execRdpool`), and so is that a
byte of `CHUNK` at or above `CHCNT` does (notes/assumptions/5.md): the spec gives those bytes no value. -/
def Obligations.RdpoolDeliversTheNextByte : Prop :=
  (encode .rdpool).cmd = 0x2000 ∧
  (∀ s : State, s.whitener.poolRd.val ≠ 2048 →
    ∃ t d, exec .rdpool s = .next t ∧
      t.whitener.poolRd.val = s.whitener.poolRd.val + 1 ∧
      t.outbox = { status := .ok, rdata := d } :: s.outbox ∧
      d.toNat = (s.whitener.pool.read s.whitener.poolRd.val).toNat ∧
      (∀ a, t.whitener.pool.read a = s.whitener.pool.read a) ∧
      (∀ a, t.whitener.chunk.read a = s.whitener.chunk.read a) ∧
      t.whitener.sponge = s.whitener.sponge ∧ t.whitener.chCnt = s.whitener.chCnt ∧
      t.monitor = s.monitor ∧ t.config = s.config ∧ t.inbox = s.inbox ∧
      (s.whitener.poolRd.val = 2047 → ∀ data, ∃ u, exec (.pushW data) t = .next u ∧
        u.lastStatus = some .ok)) ∧
  (∀ s : State, s.whitener.poolRd.val = 2048 →
    exec .rdpool s = .next { s with outbox := { status := .errPoolEmpty, rdata := 0 } :: s.outbox })

/-- 40_whitener_ops.md R108: `DISCARD` empties the chunk buffer and touches nothing else; with `CHCNT = 0`
it changes nothing. That a byte of `POOL` already delivered reads as before is the model's choice
(notes/assumptions/6.md). -/
def Obligations.DiscardEmptiesTheChunkBuffer : Prop :=
  (encode .discard).cmd = 0x3000 ∧
  ∀ s : State, ∃ t, exec .discard s = .next t ∧
    t.whitener.chCnt.val = 0 ∧
    t.whitener.sponge = s.whitener.sponge ∧ t.whitener.poolRd = s.whitener.poolRd ∧
    (∀ a, t.whitener.pool.read a = s.whitener.pool.read a) ∧
    t.monitor = s.monitor ∧ t.config = s.config ∧ t.inbox = s.inbox ∧
    t.outbox = { status := .ok, rdata := 0 } :: s.outbox ∧
    (s.whitener.chCnt.val = 0 → s.SameUnits t)

/-- 40_whitener_ops.md R108: a host whose raw fetch fails inside a chunk issues `DISCARD`, and the whitener
is back in the state it had before the chunk was begun, up to the bytes that hold no value
(10_state.md R25). The chunk may have been gathered by `PUSH.W`, by `PUSH.WH` or by both, with any other
commands between. What the monitor has counted stays counted: `DISCARD` leaves the monitor as it finds it,
and with room in the count it is the monitor that has run every byte of `PUSH.H` and `PUSH.WH`, so the
monitor from before where there was none. -/
def Obligations.DiscardUndoesAPartialChunk : Prop :=
  ∀ (s : State) (commands : List Instr), s.whitener.poolRd.val = 2048 → s.whitener.chCnt.val = 0 →
    (commands.flatMap bytesToWhitener).length < 256 →
    let u := commands.foldl State.issue s
    let t := u.issue .discard
    let counted := commands.flatMap bytesToMonitor
    s.whitener.SameHeld t.whitener ∧ t.lastStatus = some .ok ∧
    t.monitor = u.monitor ∧ t.config = u.config ∧
    (s.monitor.totBits.toNat + 8 * counted.length < 2 ^ 64 →
      t.monitor = counted.foldl (fun m data => monitorByte data m) s.monitor) ∧
    ((∀ i ∈ commands, ∀ csr value, i ≠ .csrw csr value) → t.config = s.config)

/-- 10_state.md R25 and R27 (93_implementation_defined.md U2): a byte of `CHUNK` at or above `CHCNT`, or of
`POOL` below `POOLRD`, holds no value and nothing reads it. So what the model keeps there
(notes/assumptions/5.md and 6.md) cannot be observed: two states that agree elsewhere give the same
responses and agree elsewhere again, step after step. -/
def Obligations.BytesWithoutValueAreNeverRead : Prop :=
  ∀ s t : State, s.SameHeld t → s.whitener.StoresCanonical → t.whitener.StoresCanonical →
    ∃ s' t', step s = .next s' ∧ step t = .next t' ∧ s'.SameHeld t'

/-- 10_state.md R22, 40_whitener_ops.md R105: the sponge changes only in the push that completes a chunk
of an empty pool; no command resets or rewinds it. -/
def Obligations.SpongeChangesOnlyInARound : Prop :=
  ∀ (i : Instr) (s : State), ∃ t, exec i s = .next t ∧
    (t.whitener.sponge = s.whitener.sponge ∨
      (s.whitener.poolRd.val = 2048 ∧ s.whitener.chCnt.val = 255 ∧
        ∃ data, (i = .pushW data ∨ i = .pushWH data) ∧
          t.whitener.sponge =
            absorbBytes s.whitener.sponge ((s.whitener.chunk.write 255 data).firstBytes 256)))

/-- 10_state.md R49, 20_memory.md R61 and R64, 40_whitener_ops.md R104 and R112: from every state that a
history leads to, every command leads to the state the continued history leads to. The history is read off
the commands and their responses alone. -/
def Obligations.WhitenerFollowsItsHistory : Prop :=
  ∀ (h : WhitenerHistory) (s : State) (i : Instr), h.Tracks s.whitener → s.whitener.StoresCanonical →
    ∃ t r, exec i s = .next t ∧ t.outbox = r :: s.outbox ∧ (h.after i r).Tracks t.whitener

/-- 40_whitener_ops.md R112, 10_state.md R24: in every run from reset, the bytes ever delivered are an
initial piece of `Z_1 ++ Z_2 ++ ...`, what remains of it is what the pool still holds, the sponge has
absorbed the concatenation of the chunks, and `ABSPOS = (256*N) mod 136` after `N` rounds. -/
def Obligations.OutputStreamIsDeliveredInOrder : Prop :=
  ∀ commands : List Instr,
    let s := (runFromReset commands).1
    let h := (runFromReset commands).2
    h.delivered <+: outputStream h.chunks ∧
    h.delivered ++ s.whitener.undelivered = outputStream h.chunks ∧
    s.whitener.sponge = absorbBytes Sponge.zero h.chunks.flatten ∧
    s.whitener.sponge.absPos.val = (256 * h.chunks.length) % 136

/-! ### The sponge kernel (10_state.md R23, 41_sponge_kernel.md) -/

/-- 10_state.md R23: lane `A[x][y]` is the little-endian 64-bit integer in bytes `8*(5*y+x)` to
`8*(5*y+x)+7` of `S`, and `S` and `A` are two views of the same 1600 bits. -/
def Obligations.LanesAreTheLittleEndianViewOfTheBytes : Prop :=
  (∀ (S : SpongeBytes) (x y : Fin 5),
    (lane (lanesOfBytes S) x.val y.val).toNat =
      ((List.finRange 8).map fun k => (S[8 * (5 * y.val + x.val) + k.val]'(by omega)).toNat *
        2 ^ (8 * k.val)).sum) ∧
  (∀ S : SpongeBytes, bytesOfLanes (lanesOfBytes S) = S) ∧
  (∀ A : Lanes, A.length = 25 → lanesOfBytes (bytesOfLanes A) = A)

/-- 41_sponge_kernel.md R121: the permutation reads the bytes as lanes, applies 24 rounds in order, each
theta, rho and pi, chi, iota with its own constant, and writes the lanes back; lane indices count modulo 5. -/
def Obligations.KeccakRunsTwentyFourRounds : Prop :=
  roundConstants.length = 24 ∧
  (∀ (A : Lanes) (x y : Nat), lane A (x % 5) (y % 5) = lane A x y) ∧
  ∀ S : SpongeBytes, lanesOfBytes (keccakF S) =
    (List.range 24).foldl (fun A ir => iota (roundConstants.getD ir 0) (chi (rhoPi (theta A))))
      (lanesOfBytes S)

/-- 41_sponge_kernel.md R122, R123, R124: the steps theta, rho with pi, and chi, lane by lane. The rule for
rho and pi gives where a lane goes; the model is written from where it comes
(notes/assumptions/20.md). -/
def Obligations.KeccakStepsFollowTheirFormulas : Prop :=
  ∀ (A : Lanes) (x y : Fin 5),
    (let C := fun j => lane A j 0 ^^^ lane A j 1 ^^^ lane A j 2 ^^^ lane A j 3 ^^^ lane A j 4
     let D := fun j => C ((j + 4) % 5) ^^^ (C ((j + 1) % 5)).rotateLeft 1
     lane (theta A) x.val y.val = lane A x.val y.val ^^^ D x.val) ∧
    (∃ r : List Nat, (x.val, r) ∈ ([(0, [0, 36, 3, 41, 18]), (1, [1, 44, 10, 45, 2]),
        (2, [62, 6, 43, 15, 61]), (3, [28, 55, 25, 21, 56]), (4, [27, 20, 39, 8, 14])] : List (Nat × List Nat)) ∧
      lane (rhoPi A) y.val ((2 * x.val + 3 * y.val) % 5) =
        (lane A x.val y.val).rotateLeft (r.getD y.val 0)) ∧
    lane (chi A) x.val y.val =
      lane A x.val y.val ^^^ (~~~(lane A ((x.val + 1) % 5) y.val) &&& lane A ((x.val + 2) % 5) y.val)

/-- 41_sponge_kernel.md R125: iota XORs the round's constant into `A[0][0]` and changes no other lane; the
24 constants, `RC[ir]` beside `RC[ir + 12]` as the rule prints them. -/
def Obligations.IotaAddsTheRoundConstant : Prop :=
  (∀ (A : Lanes) (rc : Lane) (x y : Fin 5),
    lane (iota rc A) x.val y.val =
      if x.val = 0 ∧ y.val = 0 then lane A 0 0 ^^^ rc else lane A x.val y.val) ∧
  roundConstants.length = 24 ∧
  (roundConstants.take 12).zip (roundConstants.drop 12) =
    [(0x0000000000000001, 0x000000008000808B),
     (0x0000000000008082, 0x800000000000008B),
     (0x800000000000808A, 0x8000000000008089),
     (0x8000000080008000, 0x8000000000008003),
     (0x000000000000808B, 0x8000000000008002),
     (0x0000000080000001, 0x8000000000000080),
     (0x8000000080008081, 0x000000000000800A),
     (0x8000000000008009, 0x800000008000000A),
     (0x000000000000008A, 0x8000000080008081),
     (0x0000000000000088, 0x8000000000008080),
     (0x0000000080008009, 0x0000000080000001),
     (0x000000008000000A, 0x8000000080008008)]

/-- 41_sponge_kernel.md R131: the two tables come out of their generators. -/
def Obligations.SpongeTablesRegenerate : Prop :=
  rotationOffset 0 0 = 0 ∧
  (∀ t, t < 24 → rotationOffset (rotationWalk t).1 (rotationWalk t).2 = (t + 1) * (t + 2) / 2 % 64) ∧
  rcBit 0 = true ∧
  (∀ ir, ir < 24 → ∀ b, b < 64 → (roundConstants.getD ir 0).getLsbD b =
    (List.range 7).any fun j => b == 2 ^ j - 1 && rcBit (j + 7 * ir))

/-- 41_sponge_kernel.md R126: absorbing `m1` then `m2` is absorbing `m1 ++ m2`; the position counts modulo
136; short of the rate the bytes are XORed in and nothing is permuted; the byte that fills the rate runs
`KeccakF` once and returns to position 0. Only bytes 0 to 135 ever receive input. -/
def Obligations.AbsorptionCarriesItsPosition : Prop :=
  (∀ (sp : Sponge) (m1 m2 : List Byte),
    absorbBytes sp (m1 ++ m2) = absorbBytes (absorbBytes sp m1) m2) ∧
  (∀ (sp : Sponge) (m : List Byte),
    (absorbBytes sp m).absPos.val = (sp.absPos.val + m.length) % 136) ∧
  (∀ (sp : Sponge) (m : List Byte), sp.absPos.val + m.length < 136 → ∀ (j : Nat) (hj : j < 200),
    (absorbBytes sp m).bytes[j] =
      if sp.absPos.val ≤ j ∧ j < sp.absPos.val + m.length
      then sp.bytes[j] ^^^ m.getD (j - sp.absPos.val) 0 else sp.bytes[j]) ∧
  (∀ (sp : Sponge) (m : List Byte), sp.absPos.val + m.length = 136 →
    ∃ X : SpongeBytes, absorbBytes sp m = { bytes := keccakF X, absPos := 0 } ∧
      ∀ (j : Nat) (hj : j < 200), X[j] =
        if sp.absPos.val ≤ j ∧ j < 136 then sp.bytes[j] ^^^ m.getD (j - sp.absPos.val) 0 else sp.bytes[j])

/-- 41_sponge_kernel.md R127: the copy to be squeezed differs from `S` in byte `p` (XOR 0x1F) and byte 135
(XOR 0x80), and in the one byte by 0x9F when `p = 135`. -/
def Obligations.PadCopyMarksTheCopy : Prop :=
  ∀ (sp : Sponge) (j : Nat) (hj : j < 200), (padCopy sp)[j] =
    if j = sp.absPos.val ∧ j = 135 then sp.bytes[j] ^^^ 0x9F
    else if j = sp.absPos.val then sp.bytes[j] ^^^ 0x1F
    else if j = 135 then sp.bytes[j] ^^^ 0x80
    else sp.bytes[j]

/-- 41_sponge_kernel.md R128: with `T_0 = KeccakF(PadCopy(S, p))` and `T_(k+1) = KeccakF(T_k)`, the 2048
bytes are `Z[136*k + j] = T_k[j]` for `k` in 0..14, `j` in 0..135, and `Z[2040 + j] = T_15[j]` for `j` in
0..7. -/
def Obligations.SqueezeIsLaidOutInBlocks : Prop :=
  ∀ sp : Sponge,
    let T := fun k : Nat => keccakF^[k + 1] (padCopy sp)
    (squeeze2048 sp).length = 2048 ∧
    (∀ (k j : Nat), k < 15 → (hj : j < 136) → (squeeze2048 sp).getD (136 * k + j) 0 = (T k)[j]) ∧
    (∀ (j : Nat) (hj : j < 8), (squeeze2048 sp).getD (2040 + j) 0 = (T 15)[j])

/-! ### The monitor (10_state.md, 42_health_monitor_ops.md) -/

/-- 42_health_monitor_ops.md R156: one monitor step, on exact integers as long as no element overflows
(10_state.md R34 rules overflow out), and the eight steps of a byte, bit 7 first. -/
def Obligations.MonitorStepFollowsItsRule : Prop :=
  (∀ (m : Monitor) (b : Bool),
    let c := ((m.context m.hist).get b).toNat
    let n := ((m.context m.hist).get false).toNat + ((m.context m.hist).get true).toNat
    c + 1 < 2 ^ 64 → m.totBits.toNat + 1 < 2 ^ 64 → m.eSum.toNat + surprise c n < 2 ^ 128 →
    (monitorBit m b).eSum.toNat = m.eSum.toNat + surprise c n ∧
    (((monitorBit m b).context m.hist).get b).toNat = c + 1 ∧
    (∀ h b', (h ≠ m.hist ∨ b' ≠ b) → ((monitorBit m b).context h).get b' = (m.context h).get b') ∧
    (monitorBit m b).hist.toNat = (2 * m.hist.toNat + b.toNat) % 128 ∧
    (monitorBit m b).totBits.toNat = m.totBits.toNat + 1) ∧
  (∀ (data : Byte) (m : Monitor), monitorByte data m =
    [data.getLsbD 7, data.getLsbD 6, data.getLsbD 5, data.getLsbD 4, data.getLsbD 3, data.getLsbD 2,
      data.getLsbD 1, data.getLsbD 0].foldl monitorBit m)

/-- 42_health_monitor_ops.md R150: `PUSH.H` runs the eight bit steps of its byte, whatever the pool holds:
8 more bits counted, the history the low 7 bits of the byte, whitener and configuration untouched. At the
saturation guard (R151) it is refused. -/
def Obligations.PushHCountsEightBits : Prop :=
  (∀ data : Byte, (encode (.pushH data)).cmd = 0x1200 ||| data.setWidth 16) ∧
  (∀ (data : Byte) (s : State), s.monitor.totBits.toNat ≤ 2 ^ 64 - 9 →
    ∃ t, exec (.pushH data) s = .next t ∧
      t.monitor = monitorByte data s.monitor ∧
      t.monitor.totBits.toNat = s.monitor.totBits.toNat + 8 ∧
      t.monitor.hist.toNat = data.toNat % 128 ∧
      t.whitener = s.whitener ∧ t.config = s.config ∧ t.inbox = s.inbox ∧
      t.outbox = { status := .ok, rdata := 0 } :: s.outbox) ∧
  (∀ (data : Byte) (s : State), 2 ^ 64 - 9 < s.monitor.totBits.toNat →
    exec (.pushH data) s = .next { s with outbox := { status := .errCntSat, rdata := 0 } :: s.outbox })

/-- 10_state.md R30 to R33, 42_health_monitor_ops.md R157 and R158: the monitor is a function of the bit
stream made of every byte pushed to it, in push order, across bytes, commands and both kinds of push: the
history is the last 7 bits, `CNT[h][b]` counts how often `b` followed the history `h`, `ESUM` is the code
length, `TOTBITS` the length. Every command keeps it so. -/
def Obligations.MonitorFollowsItsBitStream : Prop :=
  ∀ (past : List Bool) (s : State) (i : Instr), s.monitor.Tracks past →
    ∃ t r, exec i s = .next t ∧ t.outbox = r :: s.outbox ∧ t.monitor.Tracks (bitsAfter past i r)

/-- 10_state.md R30, R32, R33: the statistics only grow. -/
def Obligations.StatisticsNeverDecrease : Prop :=
  ∀ (i : Instr) (s : State), s.monitor.Consistent → ∃ t, exec i s = .next t ∧
    (∀ h b, ((s.monitor.context h).get b).toNat ≤ ((t.monitor.context h).get b).toNat) ∧
    s.monitor.eSum.toNat ≤ t.monitor.eSum.toNat ∧
    s.monitor.totBits.toNat ≤ t.monitor.totBits.toNat

/-- 42_health_monitor_ops.md R153: `Log2Fix(1) = 0`, exact on powers of two and under doubling, integer
part the index of the top bit, and the two worked values. -/
def Obligations.LogarithmIsExactOnPowersOfTwo : Prop :=
  log2Fix 1 = 0 ∧
  (∀ k, k < 64 → log2Fix (2 ^ k) = k * 2 ^ 32) ∧
  (∀ k m, 1 ≤ m → 2 ^ k * m < 2 ^ 64 → log2Fix (2 ^ k * m) = k * 2 ^ 32 + log2Fix m) ∧
  (∀ e m, 2 ^ e ≤ m → m < 2 ^ (e + 1) → m < 2 ^ 64 → log2Fix m / 2 ^ 32 = e) ∧
  log2Fix 3 = 6807362105 ∧ log2Fix 10 = 14267572527

/-- 42_health_monitor_ops.md R154, S1 to S3, and the fallback of R152: a value never seen costs one bit, a
value always seen costs nothing, `k` halvings cost exactly `k` bits, and the cost grows with the visits and
falls with the count. -/
def Obligations.SurpriseFollowsItsLaws : Prop :=
  (∀ n, surprise 0 n = 2 ^ 32) ∧
  (∀ n, 1 ≤ n → n < 2 ^ 64 → surprise n n = 0) ∧
  (∀ c k, 1 ≤ c → 2 ^ k * c < 2 ^ 64 → surprise c (2 ^ k * c) = k * 2 ^ 32) ∧
  (∀ c n n', 1 ≤ c → c ≤ n → n ≤ n' → n' < 2 ^ 64 → surprise c n ≤ surprise c n') ∧
  (∀ c c' n, 1 ≤ c → c ≤ c' → c' ≤ n → n < 2 ^ 64 → surprise c' n ≤ surprise c n)

/-- 42_health_monitor_ops.md R154, S4: the fixed-point surprise is within two units of the real one
(93_implementation_defined.md U9: "a proof of S4 for rule R153 is then owed"). -/
def Obligations.SurpriseIsWithinTwoUnits : Prop :=
  ∀ c n : Nat, 1 ≤ c → c ≤ n → n < 2 ^ 64 →
    |(surprise c n : ℝ) - 2 ^ 32 * Real.logb 2 ((n : ℝ) / c)| < 2

/-- 42_health_monitor_ops.md R155: no bit costs `2^38` units or more, so `ESUM <= TOTBITS * (2^38 - 1)`
stays below `2^102` and its 128 bits never overflow: a byte pushed to a consistent monitor is added to
`ESUM` without wrapping. -/
def Obligations.EntropySumNeverOverflows : Prop :=
  (∀ c n, c ≤ n → n < 2 ^ 64 → surprise c n < 2 ^ 38) ∧
  (∀ m : Monitor, m.Consistent → m.eSum.toNat < 2 ^ 102) ∧
  (∀ (data : Byte) (m : Monitor), m.Consistent → m.totBits.toNat ≤ 2 ^ 64 - 9 →
    m.eSum.toNat ≤ (monitorByte data m).eSum.toNat ∧
    (monitorByte data m).eSum.toNat ≤ m.eSum.toNat + 8 * (2 ^ 38 - 1))

/-- 42_health_monitor_ops.md R160: `HEALTHY` answers 1 below the window, else compares exactly, and writes
nothing. -/
def Obligations.HealthyAnswersTheVerdict : Prop :=
  (encode .healthy).cmd = 0x4000 ∧
  ∀ s : State,
    let E : Int := s.monitor.eSum.toNat
    let N : Int := s.monitor.totBits.toNat
    let T : Int := s.config.target.toNat
    let L : Int := s.config.tolerance.toNat
    ∃ d, exec .healthy s = .next { s with outbox := { status := .ok, rdata := d } :: s.outbox } ∧
      (d = 0 ∨ d = 1) ∧
      (N < s.config.window.toNat → d = 1) ∧
      (s.config.window.toNat ≤ N → N = 0 → (d = 1 ↔ T * 10 ^ 6 ≤ T * L)) ∧
      (s.config.window.toNat ≤ N → N ≠ 0 →
        (d = 1 ↔ |E * 10 ^ 12 - T * 10 ^ 6 * 2 ^ 32 * N| ≤ T * L * 2 ^ 32 * N))

/-- 42_health_monitor_ops.md R161: with `e = E / (2^32 * N)`, `t = T / 10^6` and `tol = L / 10^6`, the
integer test is exactly the source's `|e - t| <= t * tol`; and the sizes of its intermediates. -/
def Obligations.VerdictDecidesTheSourceInequality : Prop :=
  (∀ E N T L W : Nat, W ≤ N → 0 < N →
    (verdict E N T L W = true ↔
      |(E : ℚ) / (2 ^ 32 * N) - (T : ℚ) / 10 ^ 6| ≤ (T : ℚ) / 10 ^ 6 * ((L : ℚ) / 10 ^ 6))) ∧
  (∀ E N T L : Nat, E < 2 ^ 102 → N < 2 ^ 64 → T < 2 ^ 32 → L < 2 ^ 32 →
    T * L * 2 ^ 32 * N < 2 ^ 160 ∧ E * 10 ^ 12 < 2 ^ 142 ∧ T * 10 ^ 6 * 2 ^ 32 * N < 2 ^ 148)

/-- 42_health_monitor_ops.md R162: `ENTROPY` answers `floor(ESUM / TOTBITS)`, 0 with no data, below `2^38`
in every consistent state, and writes nothing. -/
def Obligations.EntropyAnswersTheMean : Prop :=
  (encode .entropy).cmd = 0x5000 ∧
  ∀ s : State, s.monitor.Consistent →
    ∃ d : Word64, exec .entropy s = .next { s with outbox := { status := .ok, rdata := d } :: s.outbox } ∧
      (s.monitor.totBits.toNat = 0 → d = 0) ∧
      (s.monitor.totBits.toNat ≠ 0 → d.toNat = s.monitor.eSum.toNat / s.monitor.totBits.toNat) ∧
      d.toNat < 2 ^ 38

/-- 42_health_monitor_ops.md R164(a): on the all-zero stream only the first bit costs anything, so the
estimate is `2^32 / N`, and with the reset configuration the verdict is 1 below 80000 bits and 0 from
there on. -/
def Obligations.AllZeroStreamTurnsUnhealthy : Prop :=
  ∀ n : Nat, 1 ≤ n → 8 * n < 2 ^ 64 →
    let s := (List.replicate n (Instr.pushH 0)).foldl State.issue State.reset
    s.monitor.eSum.toNat = 2 ^ 32 ∧ s.monitor.totBits.toNat = 8 * n ∧ s.monitor.hist = 0 ∧
    (s.monitor.context 0).zeros.toNat = 8 * n ∧
    s.monitor.estimate = 2 ^ 32 / (8 * n) ∧
    (s.isHealthy = true ↔ 8 * n < 80000)

/-! ### Invariants (10_state.md R29, R32, R34) -/

/-- 10_state.md R29, R32, R34: every step, of a command, of an illegal word or of reset, from every state
that has the invariants, keeps them. That the byte stores stay in canonical form is the model's own
part. -/
def Obligations.EveryStepKeepsTheInvariants : Prop :=
  ∀ s t : State, s.Safe → step s = .next t → t.Safe

/-- 10_state.md R29, R34, R49, R50: the invariants hold at reset, and both histories start there. -/
def Obligations.InvariantsHoldAtReset : Prop :=
  State.reset.Safe ∧ WhitenerHistory.start.Tracks State.reset.whitener ∧ State.reset.monitor.Tracks []

/-! ### System commands and separation (43_system_ops.md, 10_state.md, 20_memory.md) -/

/-- 43_system_ops.md R180: what each register number reads as, zeros above; any other number is refused
with `ERR_CSR`; nothing is written. -/
def Obligations.CsrrReadsTheRegisterMap : Prop :=
  ∀ (csr : Byte) (s : State), (encode (.csrr csr)).cmd = 0x6000 ||| csr.setWidth 16 ∧ ∃ st d,
    exec (.csrr csr) s = .next { s with outbox := { status := st, rdata := d } :: s.outbox } ∧
    (csr = 0x00 → st = .ok ∧ d.toNat = s.config.target.toNat) ∧
    (csr = 0x01 → st = .ok ∧ d.toNat = s.config.tolerance.toNat) ∧
    (csr = 0x02 → st = .ok ∧ d = s.config.window) ∧
    (csr = 0x10 → st = .ok ∧ d = s.monitor.totBits) ∧
    (csr = 0x11 → st = .ok ∧ d.toNat = s.monitor.eSum.toNat % 2 ^ 64) ∧
    (csr = 0x12 → st = .ok ∧ d.toNat = s.monitor.eSum.toNat / 2 ^ 64) ∧
    (csr = 0x13 → st = .ok ∧ d.toNat = s.monitor.hist.toNat) ∧
    (csr = 0x20 → st = .ok ∧ d.toNat = s.whitener.chCnt.val) ∧
    (csr = 0x21 → st = .ok ∧ d.toNat = 2048 - s.whitener.poolRd.val) ∧
    (csr ∉ ([0x00, 0x01, 0x02, 0x10, 0x11, 0x12, 0x13, 0x20, 0x21] : List Byte) → st = .errCsr ∧ d = 0)

/-- 43_system_ops.md R181, 10_state.md R43: a legal write changes the one register and nothing else, is
answered `OK`, and reads back exactly; every other write is refused with `ERR_CSR` and changes nothing. -/
def Obligations.CsrwWritesOneRegister : Prop :=
  ∀ (csr : Byte) (value : Word64) (s : State),
    encode (.csrw csr value) = { cmd := 0x7000 ||| csr.setWidth 16, wdata := value } ∧
    (csr = 0x00 → value.toNat < 2 ^ 32 → ∃ c : ConfigRegs,
      exec (.csrw csr value) s =
        .next { s with config := c, outbox := { status := .ok, rdata := 0 } :: s.outbox } ∧
      c.target.toNat = value.toNat ∧ c.tolerance = s.config.tolerance ∧ c.window = s.config.window) ∧
    (csr = 0x01 → value.toNat < 2 ^ 32 → ∃ c : ConfigRegs,
      exec (.csrw csr value) s =
        .next { s with config := c, outbox := { status := .ok, rdata := 0 } :: s.outbox } ∧
      c.target = s.config.target ∧ c.tolerance.toNat = value.toNat ∧ c.window = s.config.window) ∧
    (csr = 0x02 → ∃ c : ConfigRegs,
      exec (.csrw csr value) s =
        .next { s with config := c, outbox := { status := .ok, rdata := 0 } :: s.outbox } ∧
      c.target = s.config.target ∧ c.tolerance = s.config.tolerance ∧ c.window = value) ∧
    (¬ (csr = 0x02 ∨ ((csr = 0x00 ∨ csr = 0x01) ∧ value.toNat < 2 ^ 32)) →
      exec (.csrw csr value) s = .next { s with outbox := { status := .errCsr, rdata := 0 } :: s.outbox }) ∧
    ((s.issue (.csrw csr value)).lastStatus = some .ok →
      ((s.issue (.csrw csr value)).issue (.csrr csr)).lastResponse = some { status := .ok, rdata := value })

/-- 10_state.md R46, 30_encoding.md R89: the two halves of `ESUM`, read one after the other with no monitor
push between, are consistent: `RDESUM` gives the sum. Any commands but `PUSH.H` and `PUSH.WH` may stand
between the two reads. The high half stays below `2^38`. -/
def Obligations.EntropySumHalvesAreConsistent : Prop :=
  (∀ s : State, (Pseudo.rdESum.run s).rdESumResult = some s.monitor.eSum.toNat) ∧
  (∀ (s : State) (between : List Instr),
    (∀ i ∈ between, (∀ d, i ≠ .pushH d) ∧ (∀ d, i ≠ .pushWH d)) →
    ∃ lo hi : Word64,
      (s.issue (.csrr 0x11)).lastResponse = some { status := .ok, rdata := lo } ∧
      ((between.foldl State.issue (s.issue (.csrr 0x11))).issue (.csrr 0x12)).lastResponse =
        some { status := .ok, rdata := hi } ∧
      hi.toNat * 2 ^ 64 + lo.toNat = s.monitor.eSum.toNat ∧
      (s.monitor.Consistent → hi.toNat < 2 ^ 38))

/-- 20_memory.md R75: the two units do not interact. What a whitener command does does not depend on the
monitor or the configuration and does not change them; what a monitor command does does not depend on the
whitener and does not change it. `PUSH.WH` couples them by refusing as a whole if either would refuse. -/
def Obligations.UnitsDoNotInteract : Prop :=
  (∀ (i : Instr), (i = .rdpool ∨ i = .discard ∨ ∃ d, i = .pushW d) →
    ∀ (s : State) (m : Monitor) (c : ConfigRegs), ∃ t, exec i s = .next t ∧
      t.monitor = s.monitor ∧ t.config = s.config ∧
      exec i { s with monitor := m, config := c } = .next { t with monitor := m, config := c }) ∧
  (∀ (i : Instr), (i = .healthy ∨ i = .entropy ∨ ∃ d, i = .pushH d) →
    ∀ (s : State) (w : Whitener), ∃ t, exec i s = .next t ∧
      t.whitener = s.whitener ∧ t.config = s.config ∧
      exec i { s with whitener := w } = .next { t with whitener := w }) ∧
  (∀ (d : Byte) (s : State), ∃ t, exec (.pushWH d) s = .next t ∧
    (t.lastStatus = some .ok ↔ s.whitener.poolRd.val = 2048 ∧ s.monitor.totBits.toNat ≤ 2 ^ 64 - 9) ∧
    ((s.SameUnits t ∧ t.lastStatus ≠ some .ok) ∨
     (t.lastStatus = some .ok ∧ t.config = s.config ∧
      t.whitener = pushByte d s.whitener ∧ t.monitor = monitorByte d s.monitor)))

/-- 10_state.md R48: the host learns nothing of `S`, `ABSPOS`, `CHUNK` and `CNT` from a response: two states
that differ only there answer every command alike. -/
def Obligations.HiddenStateIsNotReadOut : Prop :=
  ∀ (i : Instr) (s t : State), s.SameVisible t →
    ∃ s' t' r, exec i s = .next s' ∧ exec i t = .next t' ∧
      s'.outbox = r :: s.outbox ∧ t'.outbox = r :: t.outbox

/-- 20_memory.md R69: `CSRR`, `HEALTHY` and `ENTROPY` have no side effect and are idempotent; `RDPOOL`
consumes the byte it returns. -/
def Obligations.QueriesAreIdempotent : Prop :=
  (∀ (i : Instr) (s : State), (i = .healthy ∨ i = .entropy ∨ ∃ csr, i = .csrr csr) →
    ∃ t u r, exec i s = .next t ∧ exec i t = .next u ∧ s.SameUnits t ∧ t.SameUnits u ∧
      t.lastResponse = some r ∧ u.lastResponse = some r) ∧
  (∀ s : State, s.whitener.poolRd.val ≠ 2048 →
    ∃ t, exec .rdpool s = .next t ∧ t.whitener.poolRd.val = s.whitener.poolRd.val + 1)

/-! ### Reset (10_state.md R50, 70_reset_and_hazards.md) -/

/-- 10_state.md R50: every element's value after reset. The contents of `CHUNK` and `POOL` are unspecified
there and nothing is said of them. -/
def Obligations.ResetValuesAreTheListed : Prop :=
  (∀ (j : Nat) (hj : j < 200), State.reset.whitener.sponge.bytes[j] = 0) ∧
  State.reset.whitener.sponge.absPos.val = 0 ∧ State.reset.whitener.chCnt.val = 0 ∧
  State.reset.whitener.poolRd.val = 2048 ∧
  (∀ h b, (State.reset.monitor.context h).get b = 0) ∧
  State.reset.monitor.hist = 0 ∧ State.reset.monitor.eSum = 0 ∧ State.reset.monitor.totBits = 0 ∧
  State.reset.config.target.toNat = 864000 ∧ State.reset.config.tolerance.toNat = 50000 ∧
  State.reset.config.window.toNat = 80000

/-- 70_reset_and_hazards.md R211: `RST` replaces the state by the reset state, whatever it was. (That `RST`
is an event in the list of presented events is the model's form of it, notes/assumptions/4.md.) -/
def Obligations.ResetIsTotal : Prop :=
  ∀ (s : State) (rest : List PortEvent), s.inbox = .reset :: rest →
    ∃ t, step s = .next t ∧ State.reset.SameUnits t

/-- 70_reset_and_hazards.md R212: the first responses from reset. -/
def Obligations.FirstResponsesAfterReset : Prop :=
  (∀ i : Instr, ∃ t, exec i State.reset = .next t) ∧
  (State.reset.issue .rdpool).lastResponse = some { status := .errPoolEmpty, rdata := 0 } ∧
  (State.reset.issue .healthy).lastResponse = some { status := .ok, rdata := 1 } ∧
  (State.reset.issue .entropy).lastResponse = some { status := .ok, rdata := 0 } ∧
  (State.reset.issue (.csrr 0x21)).lastResponse = some { status := .ok, rdata := 0 } ∧
  (State.reset.issue (.csrr 0x20)).lastResponse = some { status := .ok, rdata := 0 }

/-! ### Sequences of commands (30_encoding.md R89, 40_whitener_ops.md R110) -/

/-- 30_encoding.md R89, 40_whitener_ops.md R104: `CHUNK.W` on an empty pool and an empty chunk buffer is one
absorption unit: all 256 pushes are accepted, the sponge has absorbed the 256 bytes in order, and the whole
squeeze is undelivered. -/
def Obligations.ChunkPushRunsOneRound : Prop :=
  ∀ (bytes : Vector Byte 256) (s : State), s.whitener.poolRd.val = 2048 → s.whitener.chCnt.val = 0 →
    s.whitener.StoresCanonical →
    let t := (Pseudo.chunkW bytes).run s
    t.lastStatus = some .ok ∧
    t.whitener.sponge = absorbBytes s.whitener.sponge bytes.toList ∧
    t.whitener.undelivered = squeeze2048 t.whitener.sponge ∧
    t.whitener.chCnt.val = 0 ∧ t.whitener.poolRd.val = 0 ∧ t.monitor = s.monitor ∧ t.config = s.config

/-- 40_whitener_ops.md R110, R111, R112: `HostRead(n)`, for every `n` and every read position of the pool,
from an empty chunk buffer. `chunks` are the raw chunks fetched, as few as reach `n` bytes; the stream is
what the pool still holds followed by the block of each round (20_memory.md R64). A successful call returns
the first `n` bytes of the stream and leaves the rest in the pool. A call whose fetch fails after these
chunks, before `n` bytes are there, returns nothing and leaves the pool read to its end, not rewound, and
no gathered byte. Either way the sponge has absorbed the chunks, and the monitor has counted their bytes
exactly if they were pushed with `PUSH.WH`. `HostRead(0)` issues no command. A fetch that fails at once, on
an empty pool, also drops what was gathered before the call. That the raw fetches are a list whose end is a
failed fetch is the model's form of them (notes/assumptions/18.md). -/
def Obligations.HostReadReturnsTheOutputStream : Prop :=
  (∀ push raw s, hostRead push 0 raw s = { delivered := some [], state := s }) ∧
  (∀ (monitored : Bool) (chunks : List (Vector Byte 256)) (n : Nat) (s : State),
    s.whitener.chCnt.val = 0 → s.whitener.StoresCanonical →
    (monitored = true → s.monitor.totBits.toNat + 2048 * chunks.length < 2 ^ 64) →
    let push := if monitored then Instr.pushWH else Instr.pushW
    let raw := chunks.map Vector.toList
    let stream := s.whitener.undelivered ++ outputFrom s.whitener.sponge raw
    let fed := fun t : State =>
      t.whitener.sponge = absorbBytes s.whitener.sponge raw.flatten ∧ t.whitener.chCnt.val = 0 ∧
      t.monitor = (if monitored then raw.flatten.foldl (fun m data => monitorByte data m) s.monitor
        else s.monitor) ∧
      t.config = s.config
    stream.length = 2048 - s.whitener.poolRd.val + 2048 * chunks.length ∧
    (∀ later : List RawFetch, n ≤ stream.length → (chunks = [] ∨ stream.length < n + 2048) →
      ∃ t, hostRead push n (chunks.map some ++ later) s =
          { delivered := some (stream.take n), state := t } ∧
        t.whitener.undelivered = stream.drop n ∧ fed t) ∧
    (∀ later : List RawFetch, stream.length < n → later.head?.join = none →
      ∃ t, hostRead push n (chunks.map some ++ later) s = { delivered := none, state := t } ∧
        t.whitener.poolRd.val = 2048 ∧ fed t)) ∧
  (∀ push n later (s : State), 1 ≤ n → s.whitener.poolRd.val = 2048 →
    ∃ t, hostRead push n (none :: later) s = { delivered := none, state := t } ∧
      t.whitener.chCnt.val = 0 ∧ t.whitener.sponge = s.whitener.sponge ∧
      t.whitener.poolRd.val = 2048 ∧ t.monitor = s.monitor)
end

