-- ==== Sys2Proof/Laws/Decode.lean ====
section
/-! SUPPORT. Laws of the fields of a command word (30_encoding.md R81) as arithmetic on its value. -/

namespace Sys2Proof

theorem opField_toNat (w : CmdWord) : (opField w).toNat = w.toNat / 4096 := by
  have := w.isLt
  simp [opField, BitVec.extractLsb'_toNat, Nat.shiftRight_eq_div_pow]
  omega

theorem selField_toNat (w : CmdWord) : (selField w).toNat = w.toNat / 256 % 16 := by
  simp [selField, BitVec.extractLsb'_toNat, Nat.shiftRight_eq_div_pow]

theorem immField_toNat (w : CmdWord) : (immField w).toNat = w.toNat % 256 := by
  simp [immField, BitVec.extractLsb'_toNat]

/-- A command word is its three fields. -/
theorem word_of_fields (w : CmdWord) :
    w.toNat = 4096 * (opField w).toNat + 256 * (selField w).toNat + (immField w).toNat := by
  rw [opField_toNat, selField_toNat, immField_toNat]
  omega

/-- The fields of a word built from a selector byte and a data byte (30_encoding.md R88). -/
theorem fields_of_or (hi : Nat) (hhi : hi < 256) (d : Byte) :
    ((BitVec.ofNat 16 (256 * hi)) ||| d.setWidth 16).toNat = 256 * hi + d.toNat := by
  have hd := d.isLt
  rw [BitVec.toNat_or, BitVec.toNat_ofNat, BitVec.toNat_setWidth, Nat.mod_eq_of_lt (by omega),
    Nat.mod_eq_of_lt (by omega)]
  have h := Nat.two_pow_add_eq_or_of_lt (i := 8) hd hi
  rw [show (2 : Nat) ^ 8 = 256 from rfl] at h
  exact h.symm

end Sys2Proof
end

