-- ==== Sys2Proof/Laws/State.lean ====
section
/-! SUPPORT. One lemma per field per update of State, true by unfolding once, so that no later proof
unfolds a record update; and what the reset state holds. -/

namespace Sys2Proof.Machine

/-! ### `respond` -/

section
variable (s : State) (status : Status) (rdata : Word64)

@[simp] theorem respond_whitener : (s.respond status rdata).whitener = s.whitener := rfl
@[simp] theorem respond_monitor : (s.respond status rdata).monitor = s.monitor := rfl
@[simp] theorem respond_config : (s.respond status rdata).config = s.config := rfl
@[simp] theorem respond_inbox : (s.respond status rdata).inbox = s.inbox := rfl
@[simp] theorem respond_outbox :
    (s.respond status rdata).outbox = { status := status, rdata := rdata } :: s.outbox := rfl
@[simp] theorem respond_lastResponse :
    (s.respond status rdata).lastResponse = some { status := status, rdata := rdata } := rfl

end

/-- All that a refusal does: a next state, with the code answered. -/
theorem raise_eq (code : Status) (s : State) : raise code s = .next (s.respond code 0) := rfl

/-- All that a successful end of a command does. -/
theorem respondOk_eq (rdata : Word64) (s : State) : respondOk rdata s = .next (s.respond .ok rdata) := rfl

/-! ### `assertReset` -/

section
variable (s : State)

@[simp] theorem assertReset_whitener : (assertReset s).whitener = Whitener.reset := rfl
@[simp] theorem assertReset_monitor : (assertReset s).monitor = Monitor.reset := rfl
@[simp] theorem assertReset_config : (assertReset s).config = ConfigRegs.reset := rfl
@[simp] theorem assertReset_inbox : (assertReset s).inbox = s.inbox := rfl
@[simp] theorem assertReset_outbox : (assertReset s).outbox = s.outbox := rfl

end

/-! ### `present` and `withFetchWord` -/

section
variable (s : State) (e : PortEvent) (nbits w : Nat)

@[simp] theorem present_whitener : (s.present e).whitener = s.whitener := rfl
@[simp] theorem present_monitor : (s.present e).monitor = s.monitor := rfl
@[simp] theorem present_config : (s.present e).config = s.config := rfl
@[simp] theorem present_inbox : (s.present e).inbox = e :: s.inbox := rfl
@[simp] theorem present_outbox : (s.present e).outbox = s.outbox := rfl

theorem withFetchWord_inbox :
    (s.withFetchWord nbits w).inbox =
      .command { cmd := BitVec.ofNat 16 (w % 2 ^ nbits), wdata := 0 } :: s.inbox := rfl

end

/-! ### Reset -/

@[simp] theorem reset_whitener : State.reset.whitener = Whitener.reset := rfl
@[simp] theorem reset_monitor : State.reset.monitor = Monitor.reset := rfl
@[simp] theorem reset_config : State.reset.config = ConfigRegs.reset := rfl
@[simp] theorem reset_inbox : State.reset.inbox = [] := rfl
@[simp] theorem reset_outbox : State.reset.outbox = [] := rfl
@[simp] theorem whitener_reset_sponge : Whitener.reset.sponge = Sponge.zero := rfl
@[simp] theorem whitener_reset_chunk : Whitener.reset.chunk = [] := rfl
@[simp] theorem whitener_reset_chCnt : Whitener.reset.chCnt = 0 := rfl
@[simp] theorem whitener_reset_pool : Whitener.reset.pool = [] := rfl
@[simp] theorem whitener_reset_poolRd : Whitener.reset.poolRd = 2048 := rfl
@[simp] theorem monitor_reset_hist : Monitor.reset.hist = 0 := rfl
@[simp] theorem monitor_reset_eSum : Monitor.reset.eSum = 0 := rfl
@[simp] theorem monitor_reset_totBits : Monitor.reset.totBits = 0 := rfl
@[simp] theorem sponge_zero_absPos : Sponge.zero.absPos = 0 := rfl

end Sys2Proof.Machine
end

