-- ==== Sys2Proof/Laws/Exec.lean ====
section
/-! SUPPORT. One inversion lemma per command: everything its meaning can answer, once, so that no later
proof unfolds a meaning. Each is an equation, so that it also says that a next state is answered. -/

namespace Sys2Proof.Machine

theorem exec_pushW (data : Byte) (s : State) :
    exec (.pushW data) s =
      if s.whitener.poolBusy then .next (s.respond .errPoolBusy 0)
      else .next (State.respond { s with whitener := pushByte data s.whitener } .ok 0) := rfl

theorem exec_pushH (data : Byte) (s : State) :
    exec (.pushH data) s =
      if s.monitor.saturated then .next (s.respond .errCntSat 0)
      else .next (State.respond { s with monitor := monitorByte data s.monitor } .ok 0) := rfl

theorem exec_pushWH (data : Byte) (s : State) :
    exec (.pushWH data) s =
      if s.whitener.poolBusy then .next (s.respond .errPoolBusy 0)
      else if s.monitor.saturated then .next (s.respond .errCntSat 0)
      else .next (State.respond
        { s with monitor := monitorByte data s.monitor, whitener := pushByte data s.whitener } .ok 0) := rfl

theorem exec_rdpool_empty (s : State) (h : s.whitener.poolRd.val = 2048) :
    exec .rdpool s = .next (s.respond .errPoolEmpty 0) := by
  show execRdpool s = _
  rw [execRdpool, dif_pos h]; rfl

theorem exec_rdpool_delivers (s : State) (h : s.whitener.poolRd.val ≠ 2048) :
    ∃ p : Fin 2049, p.val = s.whitener.poolRd.val + 1 ∧
    exec .rdpool s = .next (State.respond { s with whitener := { s.whitener with poolRd := p } } .ok
      ((s.whitener.pool.read s.whitener.poolRd.val).setWidth 64)) := by
  refine ⟨⟨s.whitener.poolRd.val + 1, by have := s.whitener.poolRd.isLt; omega⟩, rfl, ?_⟩
  show execRdpool s = _
  rw [execRdpool, dif_neg h]; rfl

theorem exec_discard (s : State) :
    exec .discard s =
      .next (State.respond { s with whitener := { s.whitener with chCnt := 0 } } .ok 0) := rfl

theorem exec_healthy (s : State) :
    exec .healthy s = .next (s.respond .ok (if s.isHealthy then 1 else 0)) := rfl

theorem exec_entropy (s : State) :
    exec .entropy s = .next (s.respond .ok (BitVec.ofNat 64 s.monitor.estimate)) := rfl

theorem exec_csrr (csr : Byte) (s : State) :
    exec (.csrr csr) s =
      match csrOfNumber csr with
      | some r => .next (s.respond .ok (csrRead r s))
      | none => .next (s.respond .errCsr 0) := rfl

theorem exec_csrw (csr : Byte) (value : Word64) (s : State) :
    exec (.csrw csr value) s =
      match (csrOfNumber csr).bind fun r => csrWrite r value s.config with
      | some c => .next (State.respond { s with config := c } .ok 0)
      | none => .next (s.respond .errCsr 0) := rfl

/-- A register's number names it (10_state.md R45). -/
@[simp] theorem csrOfNumber_csrNumber (r : Csr) : csrOfNumber (csrNumber r) = some r := by
  cases r <;> rfl

/-- A number names a register exactly if it is that register's number. -/
theorem csrOfNumber_eq_some {n : Byte} {r : Csr} : csrOfNumber n = some r ↔ n = csrNumber r := by
  constructor
  · intro h
    unfold csrOfNumber at h
    split at h
    · simp_all [csrNumber]; subst h; rfl
    iterate 8
      split at h
      · simp_all; subst h; rfl
    simp at h
  · rintro rfl; exact csrOfNumber_csrNumber r

/-! ### The step -/

theorem step_idle (s : State) (h : s.inbox = []) : step s = .next s := by
  simp only [step, h]; rfl

theorem step_reset (s : State) (rest : List PortEvent) (h : s.inbox = .reset :: rest) :
    step s = .next (assertReset { s with inbox := rest }) := by
  simp only [step, h]

theorem step_illegal (s : State) (c : Command) (rest : List PortEvent) (h : s.inbox = .command c :: rest)
    (hd : decode c.cmd c.wdata = none) :
    step s = .next (State.respond { s with inbox := rest } .errIllegal 0) := by
  simp only [step, h, hd]; rfl

/-! ### Runs -/

theorem issue_eq_of_exec {i : Instr} {s t : State} (h : exec i s = .next t) : s.issue i = t := by
  rw [State.issue, h]

/-- One step of a run of any machine. -/
theorem core_run_succ (M : Host.Core) {s t : M.State} (k : Nat) (h : M.step s = .next t) :
    Host.Core.run M (k + 1) s = Host.Core.run M k t := by
  rw [Host.Core.run, h]

/-- One step of a run. -/
theorem run_succ {s t : State} (k : Nat) (h : step s = .next t) :
    Host.Core.run core (k + 1) s = Host.Core.run core k t := core_run_succ core k h

end Sys2Proof.Machine
end

