-- ==== Sys2Proof/Laws/HostProcedures.lean ====
section
/-! SUPPORT. What one pass of the loop of `HostRead` does (40_whitener_ops.md R110): it ends, takes a
byte from the pool, pushes a fetched chunk, or gives up. Proofs about host reads cite these four and do not
unfold the loop. -/

namespace Sys2Proof.Machine

variable (push : Byte → Instr) (fuel want : Nat) (out : List Byte) (raw : List RawFetch) (s : State)

/-- Nothing more is wanted: the loop returns. -/
@[simp] theorem hostReadLoop_done :
    hostReadLoop push fuel 0 out raw s = { delivered := some out, state := s } := by
  cases fuel <;> rfl

/-- The pool holds a byte: it is taken. -/
theorem hostReadLoop_takes (h : s.whitener.poolRd.val ≠ 2048) :
    ∃ p : Fin 2049, p.val = s.whitener.poolRd.val + 1 ∧
      hostReadLoop push (fuel + 1) (want + 1) out raw s =
        hostReadLoop push fuel want (out ++ [s.whitener.pool.read s.whitener.poolRd.val]) raw
          (State.respond { s with whitener := { s.whitener with poolRd := p } } .ok
            ((s.whitener.pool.read s.whitener.poolRd.val).setWidth 64)) := by
  obtain ⟨p, hp, e⟩ := exec_rdpool_delivers s h
  have narrow (b : Byte) : (b.setWidth 64).setWidth 8 = b := BitVec.eq_of_toNat_eq (by simp)
  refine ⟨p, hp, ?_⟩
  rw [hostReadLoop.eq_def]
  simp only [issue_eq_of_exec e, respond_lastResponse, narrow]

/-- The pool is empty and the fetch succeeds: the 256 bytes are pushed. -/
theorem hostReadLoop_fetches (bytes : Vector Byte 256) (h : s.whitener.poolRd.val = 2048) :
    hostReadLoop push (fuel + 1) (want + 1) out (some bytes :: raw) s =
      hostReadLoop push fuel (want + 1) out raw
        (bytes.toList.foldl (fun u b => u.issue (push b)) (s.respond .errPoolEmpty 0)) := by
  rw [hostReadLoop.eq_def]
  simp only [issue_eq_of_exec (exec_rdpool_empty s h), respond_lastResponse]

/-- The pool is empty and the fetch fails: `DISCARD`, and nothing is delivered. -/
theorem hostReadLoop_fails (h : s.whitener.poolRd.val = 2048) (hraw : raw.head?.join = none) :
    hostReadLoop push (fuel + 1) (want + 1) out raw s =
      { delivered := none, state := (s.respond .errPoolEmpty 0).issue .discard } := by
  rw [hostReadLoop.eq_def]
  simp only [issue_eq_of_exec (exec_rdpool_empty s h), respond_lastResponse]
  rcases raw with _ | ⟨_ | bytes, rest⟩
  · rfl
  · rfl
  · cases hraw

end Sys2Proof.Machine
end

