-- ==== Sys2Proof/Laws/Memory.lean ====
section
/-! SUPPORT. The laws of the byte stores: a read after a write, and that every operation keeps the
canonical form and the bound. -/

namespace Sys2Proof.Machine

theorem wf_cons (a : Nat) (b : Byte) (m : Memory) :
    Memory.wf ((a, b) :: m) = true ↔
      b ≠ Memory.unlisted ∧ (∀ c ∈ m, a < c.1) ∧ m.wf = true := by
  simp [Memory.wf, and_assoc]

theorem within_iff (size : Nat) (m : Memory) :
    m.within size = true ↔ ∀ c ∈ m, c.1 < size := by
  simp [Memory.within]

theorem read_of_not_listed {m : Memory} {i : Nat} (h : ∀ c ∈ m, c.1 ≠ i) :
    m.read i = Memory.unlisted := by
  induction m with
  | nil => rfl
  | cons c m ih =>
    obtain ⟨a, b⟩ := c
    have ha : a ≠ i := h (a, b) (by simp)
    simp [Memory.read, ha, ih fun c hc => h c (by simp [hc])]

/-- `MemRead` after `MemWrite`, at every index (00_scope.md R13). -/
theorem read_write {m : Memory} (hm : m.wf = true) (i j : Nat) (v : Byte) :
    (m.write i v).read j = if j = i then v else m.read j := by
  induction m with
  | nil =>
    by_cases hv : v = Memory.unlisted
    · by_cases hji : j = i <;> simp [Memory.write, Memory.read, hv]
    · by_cases hji : j = i
      · simp [Memory.write, Memory.read, hv, hji]
      · simp [Memory.write, Memory.read, hv, hji, Ne.symm hji]
  | cons c m ih =>
    obtain ⟨a, b⟩ := c
    obtain ⟨-, hlt, hwf⟩ := (wf_cons a b m).1 hm
    have hrest : ∀ k, k ≤ a → Memory.read m k = Memory.unlisted := fun k hk =>
      read_of_not_listed fun c hc => by have := hlt c hc; omega
    rcases Nat.lt_trichotomy i a with h | h | h
    · by_cases hv : v = Memory.unlisted
      · by_cases hji : j = i
        · subst hji
          simp [Memory.write, Memory.read, hv, h, Nat.ne_of_gt h, hrest j (by omega)]
        · simp [Memory.write, hv, h, hji]
      · by_cases hji : j = i
        · simp [Memory.write, Memory.read, hv, h, hji]
        · simp [Memory.write, Memory.read, hv, h, hji, Ne.symm hji]
    · subst h
      by_cases hv : v = Memory.unlisted
      · by_cases hji : j = i
        · simp [Memory.write, hv, hji, hrest i (by omega)]
        · simp [Memory.write, Memory.read, hv, hji, Ne.symm hji]
      · by_cases hji : j = i
        · simp [Memory.write, Memory.read, hv, hji]
        · simp [Memory.write, Memory.read, hv, hji, Ne.symm hji]
    · have h1 : ¬ i < a := by omega
      have h2 : i ≠ a := by omega
      by_cases hja : a = j
      · have : j ≠ i := by omega
        subst hja
        simp [Memory.write, Memory.read, h1, h2, this]
      · simp [Memory.write, Memory.read, h1, h2, hja, ih hwf]

theorem read_write_same {m : Memory} (hm : m.wf = true) (i : Nat) (v : Byte) :
    (m.write i v).read i = v := by simp [read_write hm]

theorem read_write_other {m : Memory} (hm : m.wf = true) {i j : Nat} (h : j ≠ i) (v : Byte) :
    (m.write i v).read j = m.read j := by simp [read_write hm, h]

theorem mem_write {m : Memory} {i : Nat} {v : Byte} {c : Host.Cell} (h : c ∈ m.write i v) :
    c ∈ m ∨ c = (i, v) := by
  induction m with
  | nil => by_cases hv : v = Memory.unlisted <;> simp_all [Memory.write]
  | cons d m ih =>
    obtain ⟨a, b⟩ := d
    simp only [Memory.write] at h
    split at h
    · split at h <;> simp_all
      tauto
    · split at h
      · split at h <;> simp_all
        tauto
      · simp only [List.mem_cons] at h ⊢
        rcases h with h | h
        · exact .inl (.inl h)
        · rcases ih h with h | h
          · exact .inl (.inr h)
          · exact .inr h

/-- A write keeps the canonical form. -/
theorem wf_write {m : Memory} (hm : m.wf = true) (i : Nat) (v : Byte) : (m.write i v).wf = true := by
  induction m with
  | nil => by_cases hv : v = Memory.unlisted <;> simp [Memory.write, hv, Memory.wf]
  | cons c m ih =>
    obtain ⟨a, b⟩ := c
    obtain ⟨hb, hlt, hwf⟩ := (wf_cons a b m).1 hm
    simp only [Memory.write]
    split
    · split
      · exact hm
      · rename_i h hv
        rw [wf_cons]
        refine ⟨hv, ?_, hm⟩
        intro c hc
        rcases List.mem_cons.1 hc with rfl | hc
        · exact h
        · exact Nat.lt_trans h (hlt c hc)
    · split
      · rename_i h1 h2
        subst h2
        split
        · exact hwf
        · rename_i hv
          exact (wf_cons _ _ _).2 ⟨hv, hlt, hwf⟩
      · rename_i h1 h2
        refine (wf_cons _ _ _).2 ⟨hb, ?_, ih hwf⟩
        intro c hc
        rcases mem_write hc with hc | rfl
        · exact hlt c hc
        · show a < i; omega

/-- A write inside the store keeps the store inside its size. -/
theorem within_write {m : Memory} {size i : Nat} (hm : m.within size = true) (hi : i < size) (v : Byte) :
    (m.write i v).within size = true := by
  rw [within_iff] at *
  intro c hc
  rcases mem_write hc with hc | rfl
  · exact hm c hc
  · exact hi

theorem mem_ofBytes {l : List Byte} {base : Nat} {c : Host.Cell} (h : c ∈ Memory.ofBytes base l) :
    base ≤ c.1 ∧ c.1 < base + l.length := by
  induction l generalizing base with
  | nil => simp [Memory.ofBytes] at h
  | cons b l ih =>
    simp only [Memory.ofBytes] at h
    split at h
    · have := ih h; simp; omega
    · rcases List.mem_cons.1 h with rfl | h
      · simp
      · have := ih h; simp; omega

/-- Filling a store gives the canonical form. -/
theorem wf_ofBytes (base : Nat) (l : List Byte) : (Memory.ofBytes base l).wf = true := by
  induction l generalizing base with
  | nil => rfl
  | cons b l ih =>
    simp only [Memory.ofBytes]
    split
    · exact ih _
    · rename_i hb
      exact (wf_cons _ _ _).2 ⟨hb, fun c hc => (mem_ofBytes hc).1, ih _⟩

theorem within_ofBytes (l : List Byte) {size : Nat} (h : l.length ≤ size) :
    (Memory.ofBytes 0 l).within size = true := by
  rw [within_iff]
  intro c hc
  have := mem_ofBytes hc
  omega

theorem read_ofBytes_from (base : Nat) (l : List Byte) (i : Nat) :
    (Memory.ofBytes base l).read (base + i) = l.getD i Memory.unlisted := by
  induction l generalizing base i with
  | nil => simp [Memory.ofBytes, Memory.read]
  | cons b l ih =>
    have hrest : (Memory.ofBytes (base + 1) l).read base = Memory.unlisted :=
      read_of_not_listed fun c hc => by have := mem_ofBytes hc; omega
    cases i with
    | zero =>
      by_cases hb : b = Memory.unlisted
      · simp [Memory.ofBytes, hb, hrest]
      · simp [Memory.ofBytes, hb, Memory.read]
    | succ i =>
      have e : base + (i + 1) = base + 1 + i := by omega
      by_cases hb : b = Memory.unlisted
      · simp [Memory.ofBytes, hb, e, ih]
      · simp [Memory.ofBytes, hb, Memory.read, e, ih, show base ≠ base + 1 + i by omega]

/-- A filled store reads back what it was filled with. -/
theorem read_ofBytes (l : List Byte) (i : Nat) :
    (Memory.ofBytes 0 l).read i = l.getD i Memory.unlisted := by
  simpa using read_ofBytes_from 0 l i

@[simp] theorem firstBytes_length (m : Memory) (n : Nat) : (m.firstBytes n).length = n := by
  simp [Memory.firstBytes]

@[simp] theorem firstBytes_zero (m : Memory) : m.firstBytes 0 = [] := rfl

theorem firstBytes_succ (m : Memory) (n : Nat) : m.firstBytes (n + 1) = m.firstBytes n ++ [m.read n] := by
  simp [Memory.firstBytes, List.range_succ]

theorem firstBytes_congr {m m' : Memory} {n : Nat} (h : ∀ i, i < n → m.read i = m'.read i) :
    m.firstBytes n = m'.firstBytes n := by
  simpa [Memory.firstBytes] using h

/-- Appending one byte to the gathered bytes. -/
theorem firstBytes_write {m : Memory} (hm : m.wf = true) (n : Nat) (v : Byte) :
    (m.write n v).firstBytes (n + 1) = m.firstBytes n ++ [v] := by
  rw [firstBytes_succ, read_write_same hm]
  congr 1
  exact firstBytes_congr fun i hi => read_write_other hm (by omega) v

end Sys2Proof.Machine
end

