-- ==== Sys2Proof/Laws/Surprise.lean ====
section
/-! SUPPORT. The laws of the fixed-point logarithm and of the surprise function
(42_health_monitor_ops.md R153 to R155): range, exactness on powers of two, monotonicity. -/

namespace Sys2Proof.Machine

/-- A mantissa: `2^G <= x < 2^(G+1)` (42_health_monitor_ops.md R153). -/
abbrev IsMantissa (x : Nat) : Prop := 2 ^ 96 ≤ x ∧ x < 2 ^ 97

/-- The squaring of one iteration stays in `2^G..2^(G+2)` (42_health_monitor_ops.md R153). -/
theorem square_range {x : Nat} (h : IsMantissa x) : 2 ^ 96 ≤ (x * x) >>> 96 ∧ (x * x) >>> 96 < 2 ^ 98 := by
  obtain ⟨h1, h2⟩ := h
  rw [Nat.shiftRight_eq_div_pow]
  constructor
  · rw [Nat.le_div_iff_mul_le (by positivity)]
    exact Nat.mul_le_mul h1 h1
  · rw [Nat.div_lt_iff_lt_mul (by positivity)]
    calc x * x < 2 ^ 97 * 2 ^ 97 := Nat.mul_lt_mul'' h2 h2
      _ = 2 ^ 98 * 2 ^ 96 := by norm_num

theorem square_low {x : Nat} (h : IsMantissa x) (hs : ¬ 2 ^ 97 ≤ (x * x) >>> 96) :
    IsMantissa ((x * x) >>> 96) :=
  ⟨(square_range h).1, by omega⟩

theorem square_high {x : Nat} (h : IsMantissa x) (hs : 2 ^ 97 ≤ (x * x) >>> 96) :
    IsMantissa ((x * x) >>> 96 >>> 1) := by
  have h2 := (square_range h).2
  generalize (x * x) >>> 96 = q at hs h2 ⊢
  rw [IsMantissa, Nat.shiftRight_eq_div_pow]
  omega

theorem square_mono {x y : Nat} (h : x ≤ y) : (x * x) >>> 96 ≤ (y * y) >>> 96 := by
  rw [Nat.shiftRight_eq_div_pow, Nat.shiftRight_eq_div_pow]
  exact Nat.div_le_div_right (Nat.mul_le_mul h h)

/-- One iteration of the loop. -/
theorem log2Loop_succ (left x f : Nat) :
    log2Loop (left + 1) x f =
      if 2 ^ 97 ≤ (x * x) >>> 96 then log2Loop left ((x * x) >>> 96 >>> 1) (f + 2 ^ left)
      else log2Loop left ((x * x) >>> 96) f := rfl

/-- The fraction found so far is carried along. -/
theorem log2Loop_acc (left x f : Nat) : log2Loop left x f = f + log2Loop left x 0 := by
  induction left generalizing x f with
  | zero => rfl
  | succ n ih =>
    rw [log2Loop_succ, log2Loop_succ]
    split
    · rw [ih, ih (f := 0 + 2 ^ n)]; omega
    · rw [ih]

/-- `left` iterations find a number below `2^left`. -/
theorem log2Loop_lt {left x : Nat} (h : IsMantissa x) : log2Loop left x 0 < 2 ^ left := by
  induction left generalizing x with
  | zero => simp [log2Loop]
  | succ n ih =>
    rw [log2Loop_succ, Nat.pow_succ]
    split
    · rename_i hs
      have := ih (square_high h hs)
      rw [log2Loop_acc]; omega
    · rename_i hs
      have := ih (square_low h hs)
      omega

/-- A larger mantissa has no smaller logarithm (42_health_monitor_ops.md R154, S3). -/
theorem log2Loop_mono {left x y : Nat} (hx : IsMantissa x) (hy : IsMantissa y) (h : x ≤ y) :
    log2Loop left x 0 ≤ log2Loop left y 0 := by
  induction left generalizing x y with
  | zero => simp [log2Loop]
  | succ n ih =>
    have hsq := square_mono h
    rw [log2Loop_succ, log2Loop_succ]
    split <;> split
    · rename_i h1 h2
      rw [log2Loop_acc, log2Loop_acc (f := 0 + 2 ^ n)]
      refine Nat.add_le_add_left (ih (square_high hx h1) (square_high hy h2) ?_) _
      rw [Nat.shiftRight_eq_div_pow _ 1, Nat.shiftRight_eq_div_pow _ 1]
      exact Nat.div_le_div_right hsq
    · omega
    · rename_i h1 h2
      have := log2Loop_lt (left := n) (square_low hx h1)
      rw [log2Loop_acc (f := 0 + 2 ^ n)]; omega
    · rename_i h1 h2
      exact ih (square_low hx h1) (square_low hy h2) hsq

/-- The mantissa of a 64-bit number (42_health_monitor_ops.md R153). -/
theorem mantissa_of {m : Nat} (hm : 1 ≤ m) (h : m < 2 ^ 64) : IsMantissa (m * 2 ^ (96 - Nat.log2 m)) := by
  have hne : m ≠ 0 := by omega
  have h1 : 2 ^ Nat.log2 m ≤ m := Nat.log2_self_le hne
  have h2 : m < 2 ^ (Nat.log2 m + 1) := Nat.lt_log2_self
  have he : Nat.log2 m < 64 := (Nat.log2_lt hne).2 h
  constructor
  · calc 2 ^ 96 = 2 ^ Nat.log2 m * 2 ^ (96 - Nat.log2 m) := by rw [← pow_add]; congr 1; omega
      _ ≤ m * 2 ^ (96 - Nat.log2 m) := Nat.mul_le_mul_right _ h1
  · calc m * 2 ^ (96 - Nat.log2 m) < 2 ^ (Nat.log2 m + 1) * 2 ^ (96 - Nat.log2 m) :=
          Nat.mul_lt_mul_of_pos_right h2 (by positivity)
      _ = 2 ^ 97 := by rw [← pow_add]; congr 1; omega

/-- `Log2Fix(m)`, its parameters written out. -/
theorem log2Fix_eq (m : Nat) :
    log2Fix m = Nat.log2 m * 2 ^ 32 + log2Loop 32 (m * 2 ^ (96 - Nat.log2 m)) 0 := by rw [log2Fix]

/-- The integer part of `Log2Fix(m)` is the index of the top bit of `m`. -/
theorem log2Fix_range {m : Nat} (hm : 1 ≤ m) (h : m < 2 ^ 64) :
    Nat.log2 m * 2 ^ 32 ≤ log2Fix m ∧ log2Fix m < (Nat.log2 m + 1) * 2 ^ 32 := by
  have := log2Loop_lt (left := 32) (mantissa_of hm h)
  rw [log2Fix_eq, Nat.succ_mul]
  exact ⟨Nat.le_add_right _ _, Nat.add_lt_add_left this _⟩

/-- `Log2Fix(m) < 64 * 2^32` (42_health_monitor_ops.md R155). -/
theorem log2Fix_lt {m : Nat} (hm : 1 ≤ m) (h : m < 2 ^ 64) : log2Fix m < 64 * 2 ^ 32 := by
  have h2 : Nat.log2 m < 64 := (Nat.log2_lt (by omega)).2 h
  exact lt_of_lt_of_le (log2Fix_range hm h).2 (Nat.mul_le_mul_right _ h2)

/-- `Log2Fix` is non-decreasing (42_health_monitor_ops.md R154, S3). -/
theorem log2Fix_mono {m n : Nat} (hm : 1 ≤ m) (hmn : m ≤ n) (hn : n < 2 ^ 64) : log2Fix m ≤ log2Fix n := by
  have hm' : m < 2 ^ 64 := by omega
  have hn' : 1 ≤ n := by omega
  have hle : Nat.log2 m ≤ Nat.log2 n := by
    rw [Nat.le_log2 (by omega)]
    exact (Nat.log2_self_le (by omega)).trans hmn
  rcases Nat.lt_or_eq_of_le hle with hlt | heq
  · have h1 := (log2Fix_range hm hm').2
    have h2 := (log2Fix_range hn' hn).1
    have h3 : (Nat.log2 m + 1) * 2 ^ 32 ≤ Nat.log2 n * 2 ^ 32 := Nat.mul_le_mul_right _ hlt
    omega
  · have hx := mantissa_of hm hm'
    have hy := mantissa_of hn' hn
    rw [heq] at hx
    have := log2Loop_mono (left := 32) hx hy (Nat.mul_le_mul_right _ hmn)
    rw [log2Fix_eq, log2Fix_eq, heq]
    exact Nat.add_le_add_left this _

/-- `Log2Fix(2^k * m) = k * 2^32 + Log2Fix(m)` exactly (42_health_monitor_ops.md R153). -/
theorem log2Fix_two_pow_mul {k m : Nat} (hm : 1 ≤ m) (h : 2 ^ k * m < 2 ^ 64) :
    log2Fix (2 ^ k * m) = k * 2 ^ 32 + log2Fix m := by
  have hne : m ≠ 0 := by omega
  have hlog : Nat.log2 (2 ^ k * m) = k + Nat.log2 m := by
    rw [Nat.log2_eq_log_two, Nat.log2_eq_log_two, Nat.mul_comm, Nat.add_comm]
    induction k with
    | zero => simp
    | succ k ih =>
      have := ih (lt_of_le_of_lt (Nat.mul_le_mul_right m (Nat.pow_le_pow_right (by norm_num) (Nat.le_succ k))) h)
      rw [pow_succ, ← Nat.mul_assoc, Nat.log_mul_base (by norm_num) (by positivity), this]; rfl
  have hlt : Nat.log2 (2 ^ k * m) < 64 := (Nat.log2_lt (by positivity)).2 h
  have hmant : 2 ^ k * m * 2 ^ (96 - (k + Nat.log2 m)) = m * 2 ^ (96 - Nat.log2 m) := by
    rw [Nat.mul_comm (2 ^ k) m, Nat.mul_assoc, ← pow_add]
    congr 2; omega
  rw [log2Fix_eq, log2Fix_eq, hlog, hmant]
  ring

/-- `Log2Fix(1) = 0` (42_health_monitor_ops.md R153). -/
theorem log2Fix_one : log2Fix 1 = 0 := by decide +kernel

/-- A value always seen in its context costs nothing (42_health_monitor_ops.md R154, S1). -/
theorem surprise_self {n : Nat} (hn : 1 ≤ n) : surprise n n = 0 := by
  simp [surprise, show n ≠ 0 by omega]

/-- No bit costs `2^38` units or more (42_health_monitor_ops.md R155). -/
theorem surprise_lt {c n : Nat} (hcn : c ≤ n) (hn : n < 2 ^ 64) : surprise c n < 2 ^ 38 := by
  simp only [surprise]
  split
  · norm_num
  · have := log2Fix_lt (m := n) (by omega) hn
    omega

end Sys2Proof.Machine
end

