-- ==== Sys2Proof/Laws/Monitor.lean ====
section
/-! SUPPORT. The laws of the monitor step (42_health_monitor_ops.md R156): which counter it changes,
what it adds, and that the consistency of 10_state.md R34 is kept bit by bit. -/

namespace Sys2Proof.Machine

/-! ### Counters -/

@[simp] theorem bump_get_same (k : Counters) (b : Bool) : (k.bump b).get b = k.get b + 1 := by
  cases b <;> rfl

@[simp] theorem bump_get_other (k : Counters) (b : Bool) : (k.bump b).get (!b) = k.get (!b) := by
  cases b <;> rfl

theorem bump_get (k : Counters) (b c : Bool) :
    (k.bump b).get c = if c = b then k.get b + 1 else k.get c := by
  cases b <;> cases c <;> rfl

theorem get_le_visits (k : Counters) (b : Bool) : (k.get b).toNat ≤ k.visits := by
  cases b <;> simp [Counters.get, Counters.visits]

theorem visits_eq (k : Counters) : k.visits = (k.get false).toNat + (k.get true).toNat := rfl

/-- One more observation is one more visit, while the counter has room. -/
theorem bump_visits (k : Counters) (b : Bool) (h : (k.get b).toNat + 1 < 2 ^ 64) :
    (k.bump b).visits = k.visits + 1 := by
  cases b <;> simp only [Counters.get] at h <;>
    simp only [Counters.bump, Counters.visits, BitVec.toNat_add, show (1 : BitVec 64).toNat = 1 from rfl] <;>
    omega

/-! ### One bit -/

section
variable (m : Monitor) (b : Bool)

/-- The step changes the counters of the current context alone. -/
theorem monitorBit_context (h : BitVec 7) :
    (monitorBit m b).context h = if h = m.hist then (m.context m.hist).bump b else m.context h := by
  simp only [Monitor.context, monitorBit, Vector.getElem_set]
  by_cases e : h = m.hist
  · simp [e]
  · have : ¬ m.hist.toNat = h.toNat := fun h' => e (BitVec.eq_of_toNat_eq h'.symm)
    simp [e, this]

/-- The observed bit enters the history at bit 0 and bit 6 falls out. -/
theorem monitorBit_hist : (monitorBit m b).hist.toNat = (2 * m.hist.toNat + b.toNat) % 128 := by
  have key : ∀ h : BitVec 7, ((h <<< 1) ||| (BitVec.ofBool b).setWidth 7).toNat = (2 * h.toNat + b.toNat) % 128 := by
    cases b <;> decide
  exact key m.hist

theorem monitorBit_totBits : (monitorBit m b).totBits = m.totBits + 1 := rfl

theorem monitorBit_totBits_toNat (h : m.totBits.toNat + 1 < 2 ^ 64) :
    (monitorBit m b).totBits.toNat = m.totBits.toNat + 1 := by
  rw [monitorBit_totBits, BitVec.toNat_add]
  exact Nat.mod_eq_of_lt h

/-- The surprise is added exactly, while the sum has room. -/
theorem monitorBit_eSum_toNat
    (h : m.eSum.toNat + surprise ((m.context m.hist).get b).toNat (m.context m.hist).visits < 2 ^ 128) :
    (monitorBit m b).eSum.toNat =
      m.eSum.toNat + surprise ((m.context m.hist).get b).toNat (m.context m.hist).visits := by
  generalize hs : surprise ((m.context m.hist).get b).toNat (m.context m.hist).visits = u at h ⊢
  have e : (monitorBit m b).eSum = m.eSum + BitVec.ofNat 128 u := by rw [← hs]; rfl
  rw [e, BitVec.toNat_add, BitVec.toNat_ofNat, Nat.mod_eq_of_lt (a := u) (by omega), Nat.mod_eq_of_lt h]

end

/-! ### The sum of all counters -/

theorem sum_set_visits (l : List Counters) (i : Nat) (k : Counters) (h : i < l.length) :
    ((l.set i k).map Counters.visits).sum + l[i].visits = (l.map Counters.visits).sum + k.visits := by
  induction l generalizing i with
  | nil => simp at h
  | cons a l ih =>
    cases i with
    | zero => simp; omega
    | succ i =>
      have := ih i (by simpa using h)
      simp only [List.set_cons_succ, List.map_cons, List.sum_cons, List.getElem_cons_succ]
      omega

theorem visits_le_total (m : Monitor) (h : BitVec 7) : (m.context h).visits ≤ m.total := by
  have hmem : m.context h ∈ m.cnt.toList := by
    rw [Vector.mem_toList_iff]; exact Vector.getElem_mem h.isLt
  exact List.single_le_sum (fun _ _ => Nat.zero_le _) _ (List.mem_map_of_mem hmem)

theorem visits_le_of_mem (m : Monitor) {k : Counters} (h : k ∈ m.cnt.toList) : k.visits ≤ m.total :=
  List.single_le_sum (fun _ _ => Nat.zero_le _) _ (List.mem_map_of_mem h)

/-- One bit adds one to the sum of all counters, while the counter has room. -/
theorem monitorBit_total (m : Monitor) (b : Bool)
    (h : ((m.context m.hist).get b).toNat + 1 < 2 ^ 64) : (monitorBit m b).total = m.total + 1 := by
  have hlen : m.hist.toNat < m.cnt.toList.length := by
    rw [Vector.length_toList]; exact m.hist.isLt
  have h1 := sum_set_visits m.cnt.toList m.hist.toNat ((m.context m.hist).bump b) hlen
  have h2 := bump_visits (m.context m.hist) b h
  have h3 : m.cnt.toList[m.hist.toNat] = m.context m.hist := by simp [Monitor.context]
  have h4 : (monitorBit m b).cnt.toList = m.cnt.toList.set m.hist.toNat ((m.context m.hist).bump b) := by
    simp [monitorBit, Vector.toList_set]
  simp only [Monitor.total, h4]
  rw [h3] at h1
  omega

/-! ### Consistency, bit by bit -/

/-- `Monitor.Consistent` without the part about whole bytes: what holds after every single bit. -/
structure Monitor.BitConsistent (m : Monitor) : Prop where
  total : m.total = m.totBits.toNat
  firstBit : 0 < m.totBits.toNat → 2 ^ 32 ≤ m.eSum.toNat
  bound : m.eSum.toNat ≤ m.totBits.toNat * (2 ^ 38 - 1)

theorem Monitor.Consistent.bits {m : Monitor} (h : m.Consistent) : m.BitConsistent :=
  ⟨h.1, h.2.2.2.1, h.2.2.2.2⟩

/-- Consistency bit by bit and whole bytes give 10_state.md R34. -/
theorem Monitor.BitConsistent.consistent {m : Monitor} (h : m.BitConsistent)
    (h8 : m.totBits.toNat % 8 = 0) : m.Consistent := by
  refine ⟨h.total, h8, fun k hk => ?_, h.firstBit, h.bound⟩
  have h1 := visits_le_of_mem m hk
  have h2 := get_le_visits k false
  have h3 := get_le_visits k true
  rw [h.total] at h1
  exact ⟨h2.trans h1, h3.trans h1⟩

/-- What one bit costs in a consistent monitor with room, and that nothing overflows. -/
theorem Monitor.BitConsistent.room {m : Monitor} (hm : m.BitConsistent) (b : Bool)
    (h : m.totBits.toNat + 1 < 2 ^ 64) :
    ((m.context m.hist).get b).toNat + 1 < 2 ^ 64 ∧
    surprise ((m.context m.hist).get b).toNat (m.context m.hist).visits < 2 ^ 38 ∧
    m.eSum.toNat + surprise ((m.context m.hist).get b).toNat (m.context m.hist).visits < 2 ^ 128 := by
  have h1 := visits_le_total m m.hist
  have h2 := get_le_visits (m.context m.hist) b
  rw [hm.total] at h1
  have h3 := surprise_lt h2 (by omega)
  have h4 := hm.bound
  refine ⟨by omega, h3, ?_⟩
  omega

/-- One bit keeps the consistency. -/
theorem monitorBit_keeps {m : Monitor} (hm : m.BitConsistent) (b : Bool)
    (h : m.totBits.toNat + 1 < 2 ^ 64) : (monitorBit m b).BitConsistent := by
  obtain ⟨hc, hs, he⟩ := hm.room b h
  have hT := monitorBit_totBits_toNat m b h
  have hE := monitorBit_eSum_toNat m b he
  have hb := hm.bound
  refine ⟨by rw [monitorBit_total m b hc, hm.total, hT], fun _ => ?_, by rw [hT, hE]; omega⟩
  rcases Nat.eq_zero_or_pos m.totBits.toNat with h0 | h0
  · have hv := visits_le_total m m.hist
    have hg := get_le_visits (m.context m.hist) b
    rw [hm.total, h0] at hv
    rw [hE, show ((m.context m.hist).get b).toNat = 0 by omega]
    simp [surprise]
  · have := hm.firstBit h0
    omega

/-- A string of bits keeps the consistency and is counted exactly, while the count has room. -/
theorem monitorBits_keep (bits : List Bool) {m : Monitor} (hm : m.BitConsistent)
    (h : m.totBits.toNat + bits.length < 2 ^ 64) :
    (bits.foldl monitorBit m).BitConsistent ∧
    (bits.foldl monitorBit m).totBits.toNat = m.totBits.toNat + bits.length := by
  induction bits generalizing m with
  | nil => exact ⟨hm, rfl⟩
  | cons b bits ih =>
    simp only [List.length_cons] at h
    have hT := monitorBit_totBits_toNat m b (by omega)
    obtain ⟨h1, h2⟩ := ih (monitorBit_keeps hm b (by omega)) (by rw [hT]; omega)
    exact ⟨h1, by rw [List.foldl_cons, h2, hT, List.length_cons]; omega⟩

@[simp] theorem bitsOf_length (data : Byte) : (bitsOf data).length = 8 := by simp [bitsOf]

/-- Bits shown one after the other are all counted, as long as there is room
(42_health_monitor_ops.md R156). -/
theorem monitorBits_totBits_toNat (bits : List Bool) (m : Monitor)
    (h : m.totBits.toNat + bits.length < 2 ^ 64) :
    (bits.foldl monitorBit m).totBits.toNat = m.totBits.toNat + bits.length := by
  induction bits generalizing m with
  | nil => rfl
  | cons b bits ih =>
    rw [List.length_cons] at h
    have e := monitorBit_totBits_toNat m b (by omega)
    rw [List.foldl_cons, ih _ (by omega), e, List.length_cons]; omega

/-- A byte counts eight bits, as long as there is room (42_health_monitor_ops.md R150). -/
theorem monitorByte_totBits_toNat (data : Byte) (m : Monitor) (h : m.totBits.toNat + 8 < 2 ^ 64) :
    (monitorByte data m).totBits.toNat = m.totBits.toNat + 8 := by
  have := monitorBits_totBits_toNat (bitsOf data) m (by rwa [bitsOf_length])
  rwa [bitsOf_length] at this

theorem saturated_iff (m : Monitor) : m.saturated = true ↔ 2 ^ 64 - 9 < m.totBits.toNat := by
  simp [Monitor.saturated]

/-- A byte that is not refused keeps 10_state.md R34, and adds 8 to the bit count. -/
theorem monitorByte_keeps (data : Byte) {m : Monitor} (hm : m.Consistent) (h : m.saturated = false) :
    (monitorByte data m).Consistent ∧ (monitorByte data m).totBits.toNat = m.totBits.toNat + 8 := by
  have hr : m.totBits.toNat ≤ 2 ^ 64 - 9 := by
    by_contra hc
    have := (saturated_iff m).2 (by omega)
    simp [this] at h
  obtain ⟨h1, h2⟩ := monitorBits_keep (bitsOf data) hm.bits (by simp; omega)
  rw [bitsOf_length] at h2
  have h8 := hm.2.1
  exact ⟨h1.consistent (by rw [h2]; omega), h2⟩

/-! ### Bit streams (10_state.md R30, R31; 42_health_monitor_ops.md R158) -/

/-- The context after one more bit is the shifted history. -/
theorem contextAfter_cons (b : Bool) (past : List Bool) :
    (contextAfter (b :: past)).toNat = (2 * (contextAfter past).toNat + b.toNat) % 128 := by
  have hb : b.toNat ≤ 1 := by cases b <;> decide
  simp only [contextAfter, BitVec.toNat_ofNat, List.range_succ, List.range_zero, List.nil_append,
    List.map_cons, List.map_nil, List.sum_cons, List.sum_nil, List.cons_append, List.getD_cons_zero,
    List.getD_cons_succ]
  omega

/-- A context is visited at most once a bit. -/
theorem timesSeen_le_length (h : BitVec 7) (past : List Bool) :
    timesSeen h false past + timesSeen h true past ≤ past.length := by
  induction past with
  | nil => simp [timesSeen]
  | cons b past ih =>
    simp only [timesSeen, List.length_cons]
    cases b <;> simp <;> split <;> omega

theorem timesSeen_le_visits (h : BitVec 7) (b : Bool) (past : List Bool) :
    timesSeen h b past ≤ timesSeen h false past + timesSeen h true past := by cases b <;> omega

/-- The code length of a stream has room in 128 bits. -/
theorem codeLength_le (past : List Bool) (h : past.length < 2 ^ 64) :
    codeLength past ≤ past.length * (2 ^ 38 - 1) := by
  induction past with
  | nil => simp [codeLength]
  | cons b past ih =>
    simp only [List.length_cons] at h
    have h1 := timesSeen_le_length (contextAfter past) past
    have h2 := surprise_lt (timesSeen_le_visits (contextAfter past) b past) (by omega)
    have h3 := ih (by omega)
    simp only [codeLength, List.length_cons]
    omega

end Sys2Proof.Machine
end

