-- ==== Sys2Proof/Laws/PerInstr.lean ====
section
/-! SUPPORT. Per-instruction family `Encoded`: the word of a command is well formed
(30_encoding.md R81, R86) and lies in its own row of the opcode map (R84). -/

namespace Sys2Proof.Laws.Encoded

/-- The row of 30_encoding.md R84: the mask and the match value. -/
def row : Instr → CmdWord × CmdWord
  | .pushW _  => (0xFF00, 0x1100)
  | .pushH _  => (0xFF00, 0x1200)
  | .pushWH _ => (0xFF00, 0x1300)
  | .rdpool   => (0xFFFF, 0x2000)
  | .discard  => (0xFFFF, 0x3000)
  | .healthy  => (0xFFFF, 0x4000)
  | .entropy  => (0xFFFF, 0x5000)
  | .csrr _   => (0xFF00, 0x6000)
  | .csrw _ _ => (0xFF00, 0x7000)

/-- The encoded word is well formed and selects the command's own row. -/
def Statement (i : Instr) : Prop :=
  (encode i).cmd.wellFormed = true ∧ (encode i).cmd &&& (row i).1 = (row i).2

theorem pushW (data : Byte) : Statement (.pushW data) := by
  revert data; unfold Statement; decide

theorem pushH (data : Byte) : Statement (.pushH data) := by
  revert data; unfold Statement; decide

theorem pushWH (data : Byte) : Statement (.pushWH data) := by
  revert data; unfold Statement; decide

theorem rdpool : Statement .rdpool := by unfold Statement; decide

theorem discard : Statement .discard := by unfold Statement; decide

theorem healthy : Statement .healthy := by unfold Statement; decide

theorem entropy : Statement .entropy := by unfold Statement; decide

theorem csrr (csr : Byte) : Statement (.csrr csr) := by
  revert csr; unfold Statement; decide

theorem csrw (csr : Byte) (value : Word64) : Statement (.csrw csr value) := csrwWord csr
where
  csrwWord : ∀ csr : Byte, CmdWord.wellFormed (0x7000 ||| csr.setWidth 16) = true ∧
      (0x7000 ||| csr.setWidth 16 : CmdWord) &&& 0xFF00 = 0x7000 := by decide

end Sys2Proof.Laws.Encoded
end

