-- ==== Sys2Proof/Laws/Sponge.lean ====
section
/-! SUPPORT. The laws of the sponge kernel: the lane view, the place a lane is written to, absorption
position and content, and the layout of the squeeze. -/

namespace Sys2Proof.Machine

/-- Reading a lane of a lane table, indices modulo 5. -/
@[simp] theorem lane_lanesBy (f : Nat → Nat → Lane) (x y : Nat) :
    lane (lanesBy f) x y = f (x % 5) (y % 5) := by
  have h : 5 * (y % 5) + x % 5 < 25 := by omega
  have h1 : (5 * (y % 5) + x % 5) % 5 = x % 5 := by omega
  have h2 : (5 * (y % 5) + x % 5) / 5 = y % 5 := by omega
  simp [lane, lanesBy, List.getD, h, h1, h2]

@[simp] theorem lanesBy_length (f : Nat → Nat → Lane) : (lanesBy f).length = 25 := by simp [lanesBy]

/-- Lane indices count modulo 5 (41_sponge_kernel.md R121). -/
theorem lane_mod (A : Lanes) (x y : Nat) : lane A (x % 5) (y % 5) = lane A x y := by simp [lane]

/-- A table of 25 lanes is determined by its lanes. -/
theorem lanes_ext {A B : Lanes} (hA : A.length = 25) (hB : B.length = 25)
    (h : ∀ x y, x < 5 → y < 5 → lane A x y = lane B x y) : A = B := by
  apply List.ext_getElem (by omega)
  intro i h1 h2
  have := h (i % 5) (i / 5) (by omega) (by omega)
  have e : 5 * (i / 5 % 5) + i % 5 = i := by omega
  simpa [lane, e, List.getD, h1, h2] using this

@[simp] theorem keccakRound_length (A : Lanes) (rc : Lane) : (keccakRound A rc).length = 25 := by
  simp [keccakRound, iota]

/-- `KeccakF`, its three parts written out (41_sponge_kernel.md R121). Cite this and do not unfold. -/
theorem keccakF_eq (S : SpongeBytes) : keccakF S = bytesOfLanes (keccakLanes (lanesOfBytes S)) := by
  delta keccakF; exact Eq.refl _

/-- Rounds give 25 lanes, whatever their constants. -/
theorem foldl_keccakRound_length (constants : List Lane) {A : Lanes} (h : A.length = 25) :
    (constants.foldl keccakRound A).length = 25 := by
  induction constants generalizing A with
  | nil => exact h
  | cons rc constants ih => exact ih (keccakRound_length A rc)

theorem keccakLanes_length {A : Lanes} (h : A.length = 25) : (keccakLanes A).length = 25 :=
  foldl_keccakRound_length roundConstants h

/-! ### Absorption -/

@[simp] theorem absorbBytes_nil (sp : Sponge) : absorbBytes sp [] = sp := by simp [absorbBytes]

@[simp] theorem absorbBytes_cons (sp : Sponge) (b : Byte) (m : List Byte) :
    absorbBytes sp (b :: m) = absorbBytes (absorbByte sp b) m := by simp [absorbBytes]

/-- Absorbing `m1` and then `m2` is absorbing `m1 ++ m2` (41_sponge_kernel.md R126). -/
theorem absorbBytes_append (sp : Sponge) (m1 m2 : List Byte) :
    absorbBytes sp (m1 ++ m2) = absorbBytes (absorbBytes sp m1) m2 := by
  simp [absorbBytes]

/-- One absorbed byte moves the position by one, modulo the rate (10_state.md R24). -/
theorem absorbByte_absPos (sp : Sponge) (b : Byte) :
    (absorbByte sp b).absPos.val = (sp.absPos.val + 1) % 136 := by
  have := sp.absPos.isLt
  simp only [absorbByte]
  split <;> simp <;> omega

/-- The position after absorbing a string (10_state.md R24, 41_sponge_kernel.md R126). -/
theorem absorbBytes_absPos (sp : Sponge) (m : List Byte) :
    (absorbBytes sp m).absPos.val = (sp.absPos.val + m.length) % 136 := by
  induction m generalizing sp with
  | nil => simp [Nat.mod_eq_of_lt sp.absPos.isLt]
  | cons b m ih => rw [absorbBytes_cons, ih, absorbByte_absPos, List.length_cons]; omega

/-- Short of the rate, absorbing only XORs the bytes in at the position; the permutation does not run
(41_sponge_kernel.md R126). -/
theorem absorbBytes_within_rate (sp : Sponge) (m : List Byte) (h : sp.absPos.val + m.length < 136) :
    (absorbBytes sp m).absPos.val = sp.absPos.val + m.length ∧
    ∀ j (hj : j < 200), (absorbBytes sp m).bytes[j] =
      sp.bytes[j] ^^^ if sp.absPos.val ≤ j then m.getD (j - sp.absPos.val) 0 else 0 := by
  induction m generalizing sp with
  | nil => simp
  | cons b m ih =>
    simp only [List.length_cons] at h
    have h1 : sp.absPos.val + 1 < 136 := by omega
    have e : absorbByte sp b =
        { bytes := sp.bytes.set sp.absPos.val (sp.bytes[sp.absPos.val] ^^^ b), absPos := ⟨sp.absPos.val + 1, h1⟩ } := by
      simp [absorbByte, h1]
    obtain ⟨hp, hb⟩ := ih (absorbByte sp b) (by rw [e]; show sp.absPos.val + 1 + m.length < 136; omega)
    refine ⟨by rw [absorbBytes_cons, hp, e]; simp; omega, fun j hj => ?_⟩
    rw [absorbBytes_cons, hb j hj, e]
    rcases Nat.lt_trichotomy j sp.absPos.val with hlt | heq | hgt
    · simp [show ¬ sp.absPos.val ≤ j by omega, show ¬ sp.absPos.val + 1 ≤ j by omega,
        show ¬ sp.absPos.val = j by omega]
    · subst heq; simp
    · obtain ⟨k, rfl⟩ : ∃ k, j = sp.absPos.val + 1 + k := ⟨j - (sp.absPos.val + 1), by omega⟩
      have e1 : sp.absPos.val + 1 + k - sp.absPos.val = k + 1 := by omega
      simp [e1, show sp.absPos.val ≤ sp.absPos.val + 1 + k by omega,
        show ¬ sp.absPos.val = sp.absPos.val + 1 + k by omega]

/-- The byte that fills the rate runs the permutation once (41_sponge_kernel.md R126). -/
theorem absorbByte_fills (sp : Sponge) (b : Byte) (h : sp.absPos.val = 135) :
    absorbByte sp b =
      { bytes := keccakF (sp.bytes.set sp.absPos.val (sp.bytes[sp.absPos.val] ^^^ b)), absPos := 0 } := by
  simp [absorbByte, h]

/-! ### Squeeze -/

theorem squeezeFrom_length (T : SpongeBytes) (blocks : Nat) :
    (squeezeFrom T blocks).length = 136 * blocks + 8 := by
  induction blocks generalizing T with
  | zero => simp [squeezeFrom]
  | succ n ih => simp [squeezeFrom, ih]; omega

/-- `Z` has exactly 2048 bytes (41_sponge_kernel.md R128). -/
@[simp] theorem squeeze2048_length (sp : Sponge) : (squeeze2048 sp).length = 2048 := by
  simp [squeeze2048, squeezeFrom_length]

/-- `T_k` of 41_sponge_kernel.md R128, counted from the state the squeeze starts with. -/
def permuted (T : SpongeBytes) : Nat → SpongeBytes
  | 0 => T
  | k + 1 => permuted (keccakF T) k

theorem getD_take_bytes (T : SpongeBytes) {n j : Nat} (hj : j < n) (hn : n ≤ 200) :
    (T.toList.take n).getD j 0 = T[j] := by
  have h : j < (T.toList.take n).length := by simp; omega
  rw [List.getD_eq_getElem?_getD, List.getElem?_eq_getElem h, Option.getD_some, List.getElem_take,
    Vector.getElem_toList]

theorem squeeze_later_block (T : SpongeBytes) (rest : List Byte) {k j : Nat} {b : Byte} (hj : j < 136)
    (h : rest.getD (136 * k + j) 0 = b) : (T.toList.take 136 ++ rest).getD (136 * (k + 1) + j) 0 = b := by
  have hl : (T.toList.take 136).length = 136 := by
    rw [List.length_take, Vector.length_toList]; rfl
  have e : 136 * (k + 1) + j - 136 = 136 * k + j := by omega
  rw [List.getD_append_right _ _ _ _ (by omega), hl, e, h]

/-- Byte `136*k + j` of the squeeze is byte `j` of `T_k` (41_sponge_kernel.md R128). -/
theorem squeezeFrom_getD (T : SpongeBytes) (blocks k j : Nat) (hk : k ≤ blocks) (hj : j < 136)
    (hlast : k = blocks → j < 8) :
    (squeezeFrom T blocks).getD (136 * k + j) 0 = (permuted T k)[j] := by
  induction blocks generalizing T k with
  | zero =>
    have hk0 : k = 0 := Nat.le_zero.1 hk
    have h8 : j < 8 := hlast hk0
    subst hk0
    rw [Nat.mul_zero, Nat.zero_add]
    exact getD_take_bytes T h8 (by omega)
  | succ n ih =>
    cases k with
    | zero =>
      have hl : j < (T.toList.take 136).length := by
        rw [List.length_take, Vector.length_toList]; omega
      rw [Nat.mul_zero, Nat.zero_add]
      exact (List.getD_append _ _ _ _ hl).trans (getD_take_bytes T hj (by omega))
    | succ k =>
      rw [permuted]
      exact squeeze_later_block T _ hj (ih (keccakF T) k (by omega) (by omega))

theorem permuted_eq_iterate (T : SpongeBytes) (k : Nat) : permuted T k = keccakF^[k] T := by
  induction k generalizing T with
  | zero => rfl
  | succ k ih => rw [permuted, ih]; exact (Function.iterate_succ_apply keccakF k T).symm

/-- `Squeeze2048`, its two parts written out (41_sponge_kernel.md R128). Cite this and do not unfold. -/
theorem squeeze2048_eq (sp : Sponge) : squeeze2048 sp = squeezeFrom (keccakF (padCopy sp)) 15 := by
  rw [squeeze2048]

end Sys2Proof.Machine
end

