-- ==== Sys2Proof/Laws/Whitener.lean ====
section
/-! SUPPORT. The laws of the whitener push and of the round (40_whitener_ops.md R102, R104). -/

namespace Sys2Proof.Machine

theorem poolBusy_iff (w : Whitener) : w.poolBusy = true ↔ w.poolRd.val ≠ 2048 := by
  simp [Whitener.poolBusy]

theorem poolBusy_eq_false_iff (w : Whitener) : w.poolBusy = false ↔ w.poolRd.val = 2048 := by
  simp [Whitener.poolBusy]

/-! ### The round -/

section
variable (w : Whitener)

@[simp] theorem round_sponge :
    (round w).sponge = absorbBytes w.sponge (w.chunk.firstBytes 256) := by rw [round]
@[simp] theorem round_chunk : (round w).chunk = w.chunk := rfl
@[simp] theorem round_chCnt : (round w).chCnt = 0 := rfl
@[simp] theorem round_poolRd : (round w).poolRd = 0 := rfl
@[simp] theorem round_pool : (round w).pool = Memory.ofBytes 0 (squeeze2048 (round w).sponge) := by rw [round]

/-- After a round the pool holds the squeeze of the new sponge (40_whitener_ops.md R104). -/
theorem round_pool_read (i : Nat) :
    (round w).pool.read i = (squeeze2048 (round w).sponge).getD i 0 := by
  rw [round_pool, read_ofBytes]; rfl

end

/-- A pool that was just filled is wholly undelivered (10_state.md R27). -/
theorem undelivered_of_filled {w : Whitener} {l : List Byte} (hr : w.poolRd = 0)
    (hp : w.pool = Memory.ofBytes 0 l) (hl : l.length = 2048) : w.undelivered = l := by
  have hcnt : w.poolCnt = 2048 := by rw [Whitener.poolCnt, hr]; rfl
  apply List.ext_getElem
  · simp [Whitener.undelivered, hcnt, hl]
  · intro i h1 h2
    have h0 : w.poolRd.val + i = i := by rw [hr]; exact Nat.zero_add i
    simp only [Whitener.undelivered, List.getElem_map, List.getElem_range, h0, hp, read_ofBytes]
    rw [List.getD_eq_getElem?_getD, List.getElem?_eq_getElem h2, Option.getD_some]

/-- After a round every byte of the squeeze is undelivered (10_state.md R27). -/
theorem round_undelivered (w : Whitener) : (round w).undelivered = squeeze2048 (round w).sponge :=
  undelivered_of_filled (round_poolRd w) (round_pool w) (squeeze2048_length _)

/-! ### One pushed byte -/

/-- A push that does not complete the chunk only gathers (40_whitener_ops.md R102). -/
theorem pushByte_gathers (data : Byte) (w : Whitener) (h : w.chCnt.val + 1 < 256) :
    pushByte data w =
      { w with chunk := w.chunk.write w.chCnt.val data, chCnt := ⟨w.chCnt.val + 1, h⟩ } := by
  simp only [pushByte, dif_pos h]

/-- The 256th push runs the round (40_whitener_ops.md R102, R104). -/
theorem pushByte_rounds (data : Byte) (w : Whitener) (h : ¬ w.chCnt.val + 1 < 256) :
    pushByte data w = round { w with chunk := w.chunk.write w.chCnt.val data } := by
  simp only [pushByte, dif_neg h]

/-- Everything a push can do to the whitener: gather one byte, or absorb the 256 bytes and refill the
pool from the new sponge. -/
theorem pushByte_cases (data : Byte) (w : Whitener) :
    (w.chCnt.val + 1 < 256 ∧ (pushByte data w).sponge = w.sponge ∧ (pushByte data w).pool = w.pool ∧
      (pushByte data w).poolRd = w.poolRd ∧ (pushByte data w).chCnt.val = w.chCnt.val + 1 ∧
      (pushByte data w).chunk = w.chunk.write w.chCnt.val data) ∨
    (w.chCnt.val = 255 ∧
      (pushByte data w).sponge = absorbBytes w.sponge ((w.chunk.write 255 data).firstBytes 256) ∧
      (pushByte data w).pool = Memory.ofBytes 0 (squeeze2048 (pushByte data w).sponge) ∧
      (pushByte data w).poolRd = 0 ∧ (pushByte data w).chCnt = 0 ∧
      (pushByte data w).chunk = w.chunk.write 255 data ∧
      (pushByte data w).undelivered = squeeze2048 (pushByte data w).sponge) := by
  by_cases h : w.chCnt.val + 1 < 256
  · left; rw [pushByte_gathers data w h]; exact ⟨h, rfl, rfl, rfl, rfl, rfl⟩
  · have h255 : w.chCnt.val = 255 := by have := w.chCnt.isLt; omega
    right; rw [pushByte_rounds data w h, h255]
    exact ⟨rfl, rfl, rfl, rfl, rfl, rfl, round_undelivered _⟩

/-- A push into an empty pool keeps 10_state.md R29. -/
theorem pushByte_gathersOnlyWhenEmpty (data : Byte) (w : Whitener) (h : w.poolRd.val = 2048) :
    (pushByte data w).GathersOnlyWhenEmpty := by
  rcases pushByte_cases data w with ⟨-, -, -, hr, -⟩ | ⟨-, -, -, -, hc, -⟩
  · intro _; rw [hr]; exact h
  · intro h0; rw [hc] at h0; exact absurd h0 (by decide)

/-- A push keeps the stores canonical and inside their sizes. -/
theorem pushByte_storesCanonical (data : Byte) (w : Whitener) (h : w.StoresCanonical) :
    (pushByte data w).StoresCanonical := by
  obtain ⟨h1, h2, h3, h4⟩ := h
  have hc := w.chCnt.isLt
  rcases pushByte_cases data w with ⟨-, -, hp, -, -, hk⟩ | ⟨-, -, hp, -, -, hk, -⟩
  · rw [Whitener.StoresCanonical, hp, hk]
    exact ⟨wf_write h1 _ _, within_write h2 hc _, h3, h4⟩
  · rw [Whitener.StoresCanonical, hp, hk]
    exact ⟨wf_write h1 _ _, within_write h2 (by omega) _, wf_ofBytes _ _,
      within_ofBytes _ (squeeze2048_length _).le⟩

/-! ### The output stream (40_whitener_ops.md R112) -/

theorem outputFrom_cons (sp : Sponge) (c : List Byte) (rest : List (List Byte)) :
    outputFrom sp (c :: rest) = squeeze2048 (absorbBytes sp c) ++ outputFrom (absorbBytes sp c) rest := rfl

/-- Every chunk gives one block of 2048 bytes. -/
@[simp] theorem outputFrom_length (sp : Sponge) (chunks : List (List Byte)) :
    (outputFrom sp chunks).length = 2048 * chunks.length := by
  induction chunks generalizing sp with
  | nil => rfl
  | cons c chunks ih =>
    rw [outputFrom_cons, List.length_append, squeeze2048_length, ih, List.length_cons]; omega

/-- One more chunk adds one more block at the end. -/
theorem outputFrom_append (sp : Sponge) (chunks : List (List Byte)) (c : List Byte) :
    outputFrom sp (chunks ++ [c]) =
      outputFrom sp chunks ++ squeeze2048 (absorbBytes (absorbBytes sp chunks.flatten) c) := by
  induction chunks generalizing sp with
  | nil =>
    rw [List.nil_append, outputFrom_cons, outputFrom, outputFrom, List.append_nil, List.nil_append,
      List.flatten_nil, absorbBytes_nil]
  | cons a chunks ih =>
    rw [List.cons_append, outputFrom_cons, outputFrom_cons, ih, List.flatten_cons, absorbBytes_append,
      List.append_assoc]

@[simp] theorem undelivered_length (w : Whitener) : w.undelivered.length = w.poolCnt := by
  simp [Whitener.undelivered]

theorem undelivered_of_empty {w : Whitener} (h : w.poolRd.val = 2048) : w.undelivered = [] := by
  simp [Whitener.undelivered, Whitener.poolCnt, h]

/-- What `RDPOOL` takes off the undelivered bytes (10_state.md R27). -/
theorem undelivered_of_held {w : Whitener} {p : Fin 2049} (hp : p.val = w.poolRd.val + 1) :
    w.undelivered = w.pool.read w.poolRd.val :: Whitener.undelivered { w with poolRd := p } := by
  have hlt := p.isLt
  have hk : w.poolCnt = (2048 - p.val) + 1 := by rw [Whitener.poolCnt]; omega
  have e : Whitener.poolCnt { w with poolRd := p } = 2048 - p.val := rfl
  rw [Whitener.undelivered, Whitener.undelivered, e, hk, List.range_succ_eq_map, List.map_cons, List.map_map]
  refine congrArg₂ List.cons rfl (List.map_congr_left fun j _ => ?_)
  show w.pool.read (w.poolRd.val + (j + 1)) = w.pool.read (p.val + j)
  rw [hp]; congr 1; omega

end Sys2Proof.Machine
end

