-- ==== Sys2Proof/Machine/Assembler.lean ====
section
/-! DEFINITION. The textual form of commands and responses (30_encoding.md R88) and of the
pseudo-commands (R89). It is a way of writing for people: no step reads it. What the rule leaves open
(blanks, digits of either case, blank lines) is said in notes/assumptions/17.md. -/

namespace Sys2Proof.Machine

/-- A text without the blanks at its two ends. -/
def trimBlanks (text : List Char) : List Char :=
  let blank := fun c => c == ' ' || c == '\t'
  ((text.dropWhile blank).reverse.dropWhile blank).reverse

/-- The value of a digit in base 10 or 16. -/
def digitValue (base : Nat) (c : Char) : Option Nat :=
  let v :=
    if '0' ≤ c ∧ c ≤ '9' then c.toNat - '0'.toNat
    else if 'a' ≤ c ∧ c ≤ 'f' then c.toNat - 'a'.toNat + 10
    else if 'A' ≤ c ∧ c ≤ 'F' then c.toNat - 'A'.toNat + 10
    else base
  if v < base then some v else none

/-- The digits of a number, the most significant first; at least one. -/
def digitsValue (base : Nat) (digits : List Char) : Option Nat :=
  if digits.isEmpty then none
  else digits.foldl (fun acc c => acc.bind fun n => (digitValue base c).map (n * base + ·)) (some 0)

/-- A number in decimal or in `0x` hexadecimal (R88). -/
def parseNumber : List Char → Option Nat
  | '0' :: 'x' :: digits => digitsValue 16 digits
  | digits => digitsValue 10 digits

/-- A number that fits `bits` bits; a wider one is no operand (R83). -/
def parseBits (bits : Nat) (text : List Char) : Option (BitVec bits) :=
  (parseNumber text).bind fun n => if n < 2 ^ bits then some (BitVec.ofNat bits n) else none

/-- The names of 10_state.md R45. -/
def csrName : Csr → String
  | .target    => "TARGET"
  | .tolerance => "TOLERANCE"
  | .window    => "WINDOW"
  | .totBits   => "TOTBITS"
  | .eSumLo    => "ESUM_LO"
  | .eSumHi    => "ESUM_HI"
  | .hist      => "HIST"
  | .chCnt     => "CHCNT"
  | .poolCnt   => "POOLCNT"

/-- A register by number or by name (R88). -/
def parseCsr (text : List Char) : Option Byte :=
  match [Csr.target, .tolerance, .window, .totBits, .eSumLo, .eSumHi, .hist, .chCnt, .poolCnt].find?
      (fun r => (csrName r).toList == text) with
  | some r => some (csrNumber r)
  | none => parseBits 8 text

/-- All of a list, if every element is there. -/
def allOf {α : Type} : List (Option α) → Option (List α)
  | [] => some []
  | none :: _ => none
  | some a :: rest => (allOf rest).map (a :: ·)

/-- A list of exactly 256 bytes. -/
def chunkOf (bytes : List Byte) : Option (Vector Byte 256) :=
  if h : bytes.length = 256 then some ⟨bytes.toArray, by simpa using h⟩ else none

/-- A command of R88's table, by mnemonic and operands. -/
def parseCommand (mnemonic : List Char) (operands : List (List Char)) : Option Instr :=
  let is := fun name : String => mnemonic == name.toList
  match operands with
  | [] =>
    if is "RDPOOL" then some .rdpool
    else if is "DISCARD" then some .discard
    else if is "HEALTHY" then some .healthy
    else if is "ENTROPY" then some .entropy
    else none
  | [a] =>
    if is "PUSH.W" then (parseBits 8 a).map .pushW
    else if is "PUSH.H" then (parseBits 8 a).map .pushH
    else if is "PUSH.WH" then (parseBits 8 a).map .pushWH
    else if is "CSRR" then (parseCsr a).map .csrr
    else none
  | [a, b] =>
    if is "CSRW" then (parseCsr a).bind fun csr => (parseBits 64 b).map (.csrw csr) else none
  | _ => none

/-- A pseudo-command of R89, by mnemonic and operands. -/
def parsePseudo (mnemonic : List Char) (operands : List (List Char)) : Option Pseudo :=
  let is := fun name : String => mnemonic == name.toList
  let bytes := allOf (operands.map (parseBits 8))
  if is "FEED" then
    match bytes with
    | some [data] => some (.feed data)
    | _ => none
  else if is "ADD" then
    match bytes with
    | some (first :: more) => some (.add first more)
    | _ => none
  else if is "CHUNK.W" then (bytes.bind chunkOf).map .chunkW
  else if is "CHUNK.WH" then (bytes.bind chunkOf).map .chunkWH
  else if is "RDPOOL.N" then
    match operands with
    | [n] => (parseNumber n).map .rdpoolN
    | _ => none
  else if is "RDESUM" then if operands.isEmpty then some .rdESum else none
  else none

/-- The commands that one line of text stands for: none for a blank line or a comment, one for a
command, the expansion for a pseudo-command; no value for a line that is none of these (R88, R89). -/
def assembleLine (line : String) : Option (List Instr) :=
  let text := trimBlanks (line.toList.takeWhile (· != ';'))
  if text.isEmpty then some []
  else
    let mnemonic := text.takeWhile fun c => c != ' ' && c != '\t'
    let rest := trimBlanks (text.drop mnemonic.length)
    let operands := if rest.isEmpty then [] else (rest.splitOn ',').map trimBlanks
    match parseCommand mnemonic operands with
    | some i => some [i]
    | none => (parsePseudo mnemonic operands).map Pseudo.expand

/-- The names of the response codes (60_exceptions.md R190). -/
def Status.name : Status → String
  | .ok           => "OK"
  | .errIllegal   => "ERR_ILLEGAL"
  | .errPoolEmpty => "ERR_POOL_EMPTY"
  | .errPoolBusy  => "ERR_POOL_BUSY"
  | .errCntSat    => "ERR_CNT_SAT"
  | .errCsr       => "ERR_CSR"

/-- A response as text: `->`, the name of the code, and the data where the command answers data (R88,
R82). -/
def Response.text (i : Instr) (r : Response) : String :=
  let data := " " ++ toString r.rdata.toNat
  "-> " ++ r.status.name ++
    (if r.status = .ok then
      match i with
      | .rdpool   => data
      | .healthy  => data
      | .entropy  => data
      | .csrr _   => data
      | .pushW _  => ""
      | .pushH _  => ""
      | .pushWH _ => ""
      | .discard  => ""
      | .csrw _ _ => ""
    else "")

end Sys2Proof.Machine
end

