-- ==== Sys2Proof/Tests/Slice0.lean ====
section
/-! SUPPORT. The model's own tests. Expected results are the vectors of 95_test_vectors.md, the worked
examples of the command rules, or counted by hand from the rules; none is the model's own answer. The
last part shows, for each statement that has hypotheses, a concrete case that meets all of them. -/

namespace Sys2Proof.Tests

open Sys2Proof.Machine

/-! ### States to start from -/

/-- Reset with `rd` pool bytes delivered; only the last byte of the pool is not 0. -/
def atPool (rd : Fin 2049) : State :=
  { State.reset with whitener := { Whitener.reset with pool := [(2047, 0x5A)], poolRd := rd } }

/-- Reset with `n` zero bytes gathered. -/
def atChunk (n : Fin 256) : State :=
  { State.reset with whitener := { Whitener.reset with chCnt := n } }

/-- Reset with this sum of surprise and this bit count. -/
def atBits (eSum : BitVec 128) (n : BitVec 64) : State :=
  { State.reset with monitor := { Monitor.reset with eSum := eSum, totBits := n } }

/-- Reset with this configuration. -/
def atConfig (target tolerance : BitVec 32) (window : BitVec 64) : State :=
  { State.reset with config := { target := target, tolerance := tolerance, window := window } }

/-- The response of one command. -/
def answer (s : State) (i : Instr) : Option Response := (s.issue i).lastResponse

/-- The state after one step. -/
def afterStep (s : State) : State :=
  match step s with
  | .next t => t
  | .fault _ => s
  | .refused _ => s

def ok (d : Word64) : Option Response := some { status := .ok, rdata := d }
def refused (code : Status) : Option Response := some { status := code, rdata := 0 }

/-! ### Words that are no command (95_test_vectors.md E10): refused by the check, the decoder, the step -/

def illegalWords : List CmdWord :=
  [0x0000, 0xFFFF, 0x1000, 0x1400, 0x1800, 0x2001, 0x2100, 0x3080, 0x4F00, 0x6100, 0x7F02, 0x8000, 0xF000]

theorem test_illegal_op_not_well_formed :
    ([0x0000, 0xFFFF, 0x8000, 0xF000] : List CmdWord).all (fun w => !w.wellFormed) = true := by decide

theorem test_illegal_push_selector_not_well_formed :
    ([0x1000, 0x1400, 0x1800] : List CmdWord).all (fun w => !w.wellFormed) = true := by decide

theorem test_illegal_zero_operand_not_well_formed :
    ([0x2001, 0x2100, 0x3080, 0x4F00] : List CmdWord).all (fun w => !w.wellFormed) = true := by decide

theorem test_illegal_csr_selector_not_well_formed :
    ([0x6100, 0x7F02] : List CmdWord).all (fun w => !w.wellFormed) = true := by decide

theorem test_illegal_words_do_not_decode : illegalWords.all (fun w => (decode w 0).isNone) = true := by
  decide +kernel

theorem test_illegal_words_are_answered :
    illegalWords.all (fun w =>
      (afterStep (State.reset.present (.command { cmd := w, wdata := 1 }))).lastResponse ==
        refused .errIllegal) = true := by decide +kernel

/-! ### Decoding, from words written out (95_test_vectors.md E1 to E9, E11; 30_encoding.md R88) -/

theorem test_decode_pushW : decode 0x115A 0 = some (.pushW 0x5A) := by decide
theorem test_decode_pushH : decode 0x12A5 0 = some (.pushH 0xA5) := by decide
theorem test_decode_pushWH : decode 0x1300 0 = some (.pushWH 0x00) ∧ decode 0x13A5 0 = some (.pushWH 0xA5) := by
  decide
theorem test_decode_rdpool : decode 0x2000 0 = some .rdpool := by decide
theorem test_decode_discard : decode 0x3000 0 = some .discard := by decide
theorem test_decode_healthy : decode 0x4000 0 = some .healthy := by decide
theorem test_decode_entropy : decode 0x5000 0 = some .entropy := by decide
theorem test_decode_csrr : decode 0x6021 0 = some (.csrr 0x21) ∧ decode 0x60FF 0 = some (.csrr 0xFF) := by decide
theorem test_decode_csrw :
    decode 0x7002 0x10 = some (.csrw 0x02 0x10) ∧ decode 0x7003 0 = some (.csrw 0x03 0) := by decide
theorem test_encode_window : encode (.csrw 0x02 16) = { cmd := 0x7002, wdata := 0x10 } := by decide
theorem test_table_word_range :
    decodeTableWord 16 0x115A = some (.pushW 0x5A) ∧ decodeTableWord 32 0x1115A = none := by decide
theorem test_assembler_text :
    Instr.asm (.pushWH 165) = "PUSH.WH 165" ∧ Instr.asm (.csrw 2 16) = "CSRW 2, 16" := by decide

/-- R88, the two examples, with a comment and a register name. -/
theorem test_assemble_commands :
    assembleLine "CSRW WINDOW, 16 ; sixteen bits" = some [.csrw 0x02 16] ∧
    assembleLine "PUSH.WH 0xA5" = some [.pushWH 0xA5] ∧ assembleLine "  ; nothing" = some [] ∧
    assembleLine "PUSH.W 256" = none ∧ assembleLine "push.w 1" = none := by decide +kernel

/-- R89. -/
theorem test_assemble_pseudo_commands :
    assembleLine "ADD 1, 0x02" = some [.pushH 1, .pushH 2] ∧
    assembleLine "RDPOOL.N 0" = some [] ∧ assembleLine "RDESUM" = some [.csrr 0x11, .csrr 0x12] := by
  decide +kernel

theorem test_response_text :
    Response.text .rdpool ⟨.ok, 250⟩ = "-> OK 250" ∧
    Response.text .rdpool ⟨.errPoolEmpty, 0⟩ = "-> ERR_POOL_EMPTY" := by decide +kernel

/-! ### The byte stores -/

theorem test_store_keeps_canonical_form :
    Memory.write [(1, 5), (4, 9)] 3 7 = [(1, 5), (3, 7), (4, 9)] ∧
    Memory.write [(1, 5), (4, 9)] 4 0 = [(1, 5)] ∧
    Memory.ofBytes 0 [0, 6, 0, 8] = [(1, 6), (3, 8)] := by decide

theorem test_store_rejects_bad_forms :
    Memory.wf [(1, 0)] = false ∧ Memory.wf [(2, 1), (2, 3)] = false ∧ Memory.within 256 [(256, 1)] = false := by
  decide

/-! ### The sponge kernel (95_test_vectors.md K1, W1; 10_state.md R23) -/

/-- K1, the two lanes the vector names and lane `A[1][0]` read off its bytes. -/
theorem test_permutation_of_zero :
    (let A := keccakLanes (List.replicate 25 0)
     lane A 0 0 = 0xF1258F7940E1DDE7 ∧ lane A 1 0 = 0x84D5CCF933C0478A ∧ lane A 4 4 = 0xEAF1FF7B5CECA249) := by
  decide +kernel

/-- Byte 120 is the lowest of lane `A[0][3]`, byte 135 the highest of lane `A[1][3]`. -/
theorem test_lane_order :
    (let S : SpongeBytes := (Vector.replicate 200 (0 : Byte)).set 120 0x1F |>.set 135 0x80
     laneOfBytes S 0 3 = 0x1F ∧ laneOfBytes S 1 3 = 0x8000000000000000 ∧ laneOfBytes S 2 3 = 0) := by
  decide +kernel

/-- The first and the last byte of K1 from its lanes `A[0][0]` and `A[4][4]`. -/
theorem test_byte_order :
    (let A : Lanes := 0xF1258F7940E1DDE7 :: (List.replicate 23 0 ++ [0xEAF1FF7B5CECA249])
     (bytesOfLanes A)[0] = 0xE7 ∧ (bytesOfLanes A)[1] = 0xDD ∧ (bytesOfLanes A)[199] = 0xEA) := by
  decide +kernel

/-- R127 with `p = 135`. -/
theorem test_pad_both_in_one_byte :
    (padCopy { bytes := Vector.replicate 200 0, absPos := 135 })[135] = 0x9F := by decide +kernel

/-! ### Logarithm, surprise, verdict (95_test_vectors.md 2.4, 2.6) -/

theorem test_logarithm :
    log2Fix 3 = 6807362105 ∧ log2Fix 80000 = 69955191996 ∧ log2Fix (2 ^ 64 - 1) = 274877906943 := by
  decide +kernel

theorem test_surprise :
    surprise 0 5 = 4294967296 ∧ surprise 3 4 = 1782572487 ∧ surprise 16 17 = 375650042 := by decide +kernel

theorem test_verdict_edges :
    verdict 282024732524544 80000 864000 50000 80000 = true ∧
    verdict 282024732524543 80000 864000 50000 80000 = false ∧
    verdict 311711546474496 80000 864000 50000 80000 = true ∧
    verdict 311711546474497 80000 864000 50000 80000 = false := by decide +kernel

theorem test_verdict_without_data :
    verdict 0 0 864000 50000 0 = false ∧ verdict 0 0 0 50000 0 = true ∧ verdict 0 0 864000 1000000 0 = true := by
  decide +kernel

/-! ### One command each -/

/-- R102, the example. -/
theorem test_pushW_gathers :
    (let t := State.reset.issue (.pushW 0x5A)
     t.whitener.chCnt = 1 ∧ t.whitener.chunk = [(0, 0x5A)] ∧ t.lastResponse = ok 0) := by decide

/-- W5. -/
theorem test_pushW_refused_while_pool_holds : answer (atPool 4) (.pushW 0) = refused .errPoolBusy := by decide

/-- H2. -/
theorem test_pushH_fresh_contexts :
    (let m := (State.reset.issue (.pushH 0xA5)).monitor
     m.eSum = 0x800000000 ∧ m.totBits = 8 ∧ m.hist = 37 ∧ (m.context 20).ones = 1 ∧ (m.context 41).zeros = 1) := by
  decide +kernel

/-- H6. -/
theorem test_pushH_saturation :
    (State.issue (atBits 0 (2 ^ 64 - 16)) (.pushH 0)).monitor.totBits = 2 ^ 64 - 8 ∧
    answer (atBits 0 (2 ^ 64 - 8)) (.pushH 0) = refused .errCntSat := by decide +kernel

/-- R103, the example. -/
theorem test_pushWH_feeds_both :
    (let t := State.reset.issue (.pushWH 0x00)
     t.whitener.chCnt = 1 ∧ t.monitor.totBits = 8 ∧ t.monitor.eSum = 2 ^ 32 ∧ (t.monitor.context 0).zeros = 8) := by
  decide +kernel

/-- H6, the order of the two checks. -/
theorem test_pushWH_pool_busy_first :
    answer { atPool 5 with monitor := (atBits 0 (2 ^ 64 - 8)).monitor } (.pushWH 0) = refused .errPoolBusy ∧
    answer (atBits 0 (2 ^ 64 - 8)) (.pushWH 0) = refused .errCntSat := by decide +kernel

theorem test_rdpool_last_byte :
    answer (atPool 2047) .rdpool = ok 0x5A ∧ ((atPool 2047).issue .rdpool).whitener.poolRd = 2048 := by decide

/-- C1. -/
theorem test_rdpool_empty : answer State.reset .rdpool = refused .errPoolEmpty := by decide

/-- R108. -/
theorem test_discard : ((atChunk 3).issue .discard).whitener.chCnt = 0 ∧ answer (atChunk 3) .discard = ok 0 := by
  decide

/-- R160, the example, and one unit below the edge. -/
theorem test_healthy_edge :
    answer (atBits 282024732524544 80000) .healthy = ok 1 ∧
    answer (atBits 282024732524543 80000) .healthy = ok 0 := by decide +kernel

/-- C1 and R162, the example. -/
theorem test_entropy :
    answer State.reset .entropy = ok 0 ∧ answer (atBits (2 ^ 32) 80000) .entropy = ok 53687 := by decide +kernel

/-- C1, C3. -/
theorem test_csrr :
    answer State.reset (.csrr 0x02) = ok 80000 ∧ answer State.reset (.csrr 0x22) = refused .errCsr := by decide

/-- R45: the two halves of `ESUM`. -/
theorem test_csrr_halves :
    answer (atBits (5 * 2 ^ 64 + 7) 8) (.csrr 0x11) = ok 7 ∧
    answer (atBits (5 * 2 ^ 64 + 7) 8) (.csrr 0x12) = ok 5 := by decide +kernel

/-- C2. -/
theorem test_csrw_target :
    (State.reset.issue (.csrw 0x00 0xFFFFFFFF)).config.target = 0xFFFFFFFF ∧
    answer State.reset (.csrw 0x00 0x100000000) = refused .errCsr := by decide

/-- C3. -/
theorem test_csrw_read_only : answer State.reset (.csrw 0x10 5) = refused .errCsr := by decide

/-- A command that the host presents is the next to run. -/
theorem test_step_runs_the_presented_word :
    (let t := afterStep (State.reset.withFetchWord 16 0x2000)
     t.lastResponse = refused .errPoolEmpty ∧ t.inbox = []) := by decide

/-- R210. -/
theorem test_step_reset :
    (let t := afterStep ((atChunk 3).present .reset)
     t.whitener.chCnt = 0 ∧ t.config.target = 864000) := by decide

/-- R89: a pseudo-command stops at the first response that is not `OK`. -/
theorem test_rdpoolN_stops : ((Pseudo.rdpoolN 5).run (atPool 2047)).outbox =
    [{ status := .errPoolEmpty, rdata := 0 }, { status := .ok, rdata := 0x5A }] := by decide

/-! ### Witnesses: the hypotheses of each statement, met together, clause by clause -/

theorem witness_DecodeAndEncodeAgree :
    decode 0x5000 7 = some .entropy ∧ decode 0x7002 0x10 = some (.csrw 0x02 0x10) := by decide

theorem witness_DecodeFollowsTheOpcodeMap :
    (0x11FF : CmdWord) &&& 0xFF00 = 0x1100 ∧ (0x1200 : CmdWord) &&& 0xFF00 = 0x1200 ∧
    (0x13FF : CmdWord) &&& 0xFF00 = 0x1300 ∧ (0x2000 : CmdWord) &&& 0xFFFF = 0x2000 ∧
    (0x3000 : CmdWord) &&& 0xFFFF = 0x3000 ∧ (0x4000 : CmdWord) &&& 0xFFFF = 0x4000 ∧
    (0x5000 : CmdWord) &&& 0xFFFF = 0x5000 ∧ (0x60FF : CmdWord) &&& 0xFF00 = 0x6000 ∧
    (0x7000 : CmdWord) &&& 0xFF00 = 0x7000 ∧ decode 0x2000 0 ≠ none := by decide

/-- Both edges of every range of unused register numbers. -/
theorem witness_IllegalWordsAreExactlyTheListed :
    (State.reset.present (.command ⟨0x8000, 0⟩)).inbox = .command ⟨0x8000, 0⟩ :: [] ∧ decode 0x8000 0 = none ∧
    ∀ n ∈ ([0x03, 0x0F, 0x14, 0x1F, 0x22, 0xFF] : List Byte), csrOfNumber n = none := by decide

/-- An illegal word and a legal one, each presented with another `WDATA` than it is decoded with. -/
theorem witness_IllegalIsDecidedFromTheWordAlone :
    (decode 0xFFFF 0 = none ∧
      (State.reset.present (.command ⟨0xFFFF, 1⟩)).inbox = .command ⟨0xFFFF, 1⟩ :: []) ∧
    (decode 0x70FF 0 ≠ none ∧
      (State.reset.present (.command ⟨0x70FF, 1⟩)).inbox = .command ⟨0x70FF, 1⟩ :: []) := by decide

theorem witness_StepRunsTheDecodedCommand :
    (State.reset.present (.command ⟨0x2000, 0⟩)).inbox = .command ⟨0x2000, 0⟩ :: [] ∧
    decode 0x2000 0 = some .rdpool := by decide

theorem witness_EveryStepAnswers :
    State.reset.inbox = [] ∧ (State.reset.present .reset).inbox = .reset :: [] ∧
    (State.reset.present (.command ⟨0, 0⟩)).inbox = .command ⟨0, 0⟩ :: [] := by decide

theorem witness_CommandsTakeEffectInOrder :
    ((State.reset.present (.command ⟨0x4000, 0⟩)).present (.command ⟨0x115A, 0⟩)).inbox =
      ([.pushW 0x5A, .healthy] : List Instr).map fun i => PortEvent.command (encode i) := by decide

theorem witness_RefusalChangesNothing :
    answer State.reset .rdpool = some ⟨.errPoolEmpty, 0⟩ ∧
    (State.reset.present (.command ⟨0, 0⟩)).inbox = .command ⟨0, 0⟩ :: [] ∧ decode 0 0 = none := by decide

/-- Every refusal of every command, and the word that is none. -/
theorem witness_EachRefusalHasItsCause :
    answer (atPool 4) (.pushW 0) = refused .errPoolBusy ∧
    answer (atBits 0 (2 ^ 64 - 8)) (.pushH 0) = refused .errCntSat ∧
    answer State.reset .rdpool = refused .errPoolEmpty ∧
    answer State.reset (.csrr 0x03) = refused .errCsr ∧
    answer State.reset (.csrw 0x00 0x100000000) = refused .errCsr ∧ decode 0x0000 0 = none := by decide +kernel

theorem witness_ResponseDataFollowsTheFormat :
    answer (atPool 2047) .rdpool = ok 0x5A ∧ answer State.reset (.csrr 0x01) = ok 50000 ∧
    answer State.reset .rdpool = refused .errPoolEmpty := by decide

theorem witness_PoolEmptyAndPoolBusyExclude :
    State.reset.whitener.poolRd.val = 2048 ∧ (atPool 2047).whitener.poolRd.val ≠ 2048 := by decide

/-- Just past the guard, with an empty pool and with undelivered bytes. -/
theorem witness_SaturationIsPermanent :
    (2 ^ 64 - 9 < (atBits 0 (2 ^ 64 - 8)).monitor.totBits.toNat ∧
      (atBits 0 (2 ^ 64 - 8)).whitener.poolRd.val = 2048) ∧
    (let s : State := { atPool 5 with monitor := (atBits 0 (2 ^ 64 - 8)).monitor }
     2 ^ 64 - 9 < s.monitor.totBits.toNat ∧ s.whitener.poolRd.val ≠ 2048) := by decide +kernel

theorem witness_WhitenerPushRefusedWhilePoolHolds :
    (atPool 0).whitener.poolRd.val ≠ 2048 ∧ (atPool 2047).whitener.poolRd.val ≠ 2048 := by decide

/-- The first and the last push of this clause. -/
theorem witness_PushWGathersOneByte :
    (State.reset.whitener.poolRd.val = 2048 ∧ State.reset.whitener.chCnt.val < 255 ∧
      State.reset.whitener.StoresCanonical) ∧
    ((atChunk 254).whitener.poolRd.val = 2048 ∧ (atChunk 254).whitener.chCnt.val < 255 ∧
      (atChunk 254).whitener.StoresCanonical) := by decide

theorem witness_PushWOfTheLastByteRunsTheRound :
    (atChunk 255).whitener.poolRd.val = 2048 ∧ (atChunk 255).whitener.chCnt.val = 255 ∧
    (atChunk 255).whitener.StoresCanonical := by decide

/-- At reset and with the last count the guard lets pass; with an undelivered byte; just past the guard. -/
theorem witness_PushWHFeedsBothUnits :
    (State.reset.whitener.poolRd.val = 2048 ∧ State.reset.monitor.totBits.toNat ≤ 2 ^ 64 - 9) ∧
    ((atBits 0 (2 ^ 64 - 9)).whitener.poolRd.val = 2048 ∧
      (atBits 0 (2 ^ 64 - 9)).monitor.totBits.toNat ≤ 2 ^ 64 - 9) ∧
    (atPool 2047).whitener.poolRd.val ≠ 2048 ∧
    ((atBits 0 (2 ^ 64 - 8)).whitener.poolRd.val = 2048 ∧
      2 ^ 64 - 9 < (atBits 0 (2 ^ 64 - 8)).monitor.totBits.toNat) := by decide +kernel

theorem witness_RdpoolDeliversTheNextByte :
    (atPool 0).whitener.poolRd.val ≠ 2048 ∧ (atPool 2047).whitener.poolRd.val = 2047 ∧
    State.reset.whitener.poolRd.val = 2048 := by decide

theorem witness_DiscardEmptiesTheChunkBuffer :
    State.reset.whitener.chCnt.val = 0 ∧ (atChunk 255).whitener.chCnt.val ≠ 0 := by decide

/-- The longest partial chunk; a chunk gathered by both pushes among other commands, with the room its
bytes need and one that writes no register; the last count with that room. -/
theorem witness_DiscardUndoesAPartialChunk :
    State.reset.whitener.poolRd.val = 2048 ∧ State.reset.whitener.chCnt.val = 0 ∧
    ((List.replicate 255 (Instr.pushWH 1)).flatMap bytesToWhitener).length < 256 ∧
    (let commands : List Instr := [.pushW 1, .pushWH 2, .pushH 3, .csrr 0x20, .pushW 4]
     commands.flatMap bytesToWhitener = [1, 2, 4] ∧ commands.flatMap bytesToMonitor = [2, 3] ∧
     (atBits 0 (2 ^ 64 - 24)).monitor.totBits.toNat + 8 * (commands.flatMap bytesToMonitor).length < 2 ^ 64 ∧
     ∀ i ∈ commands, ∀ csr value, i ≠ .csrw csr value) :=
  ⟨by decide, by decide, by decide +kernel, by decide, by decide, by decide +kernel, by simp⟩

/-- Two states that differ in a byte of `CHUNK` and a byte of `POOL` that hold no value. -/
theorem witness_BytesWithoutValueAreNeverRead :
    let t : State := { State.reset with whitener := { Whitener.reset with chunk := [(5, 1)], pool := [(7, 2)] } }
    State.reset.whitener.chunk ≠ t.whitener.chunk ∧ State.reset.SameHeld t ∧
      State.reset.whitener.StoresCanonical ∧ t.whitener.StoresCanonical := by
  refine ⟨by decide, ⟨⟨rfl, rfl, rfl, fun a h => absurd h (Nat.not_lt_zero a), fun a h1 h2 => ?_⟩,
    rfl, rfl, rfl, rfl⟩, by decide, by decide⟩
  exact absurd h2 (Nat.not_lt.2 h1)

theorem tracks_start : WhitenerHistory.start.Tracks State.reset.whitener := by
  refine ⟨fun c h => absurd h (List.not_mem_nil), ?_, rfl, rfl, by decide⟩
  show Sponge.zero = absorbBytes Sponge.zero []
  rw [absorbBytes_nil]

theorem witness_WhitenerFollowsItsHistory :
    WhitenerHistory.start.Tracks State.reset.whitener ∧ State.reset.whitener.StoresCanonical :=
  ⟨tracks_start, by decide⟩

theorem witness_LanesAreTheLittleEndianViewOfTheBytes : (List.replicate 25 (1 : Lane)).length = 25 := by decide

theorem witness_AbsorptionCarriesItsPosition :
    Sponge.zero.absPos.val + (List.replicate 135 (7 : Byte)).length < 136 ∧
    Sponge.zero.absPos.val + (List.replicate 136 (7 : Byte)).length = 136 := by decide +kernel

theorem witness_MonitorStepFollowsItsRule :
    (let m := Monitor.reset
     ((m.context m.hist).get true).toNat + 1 < 2 ^ 64 ∧ m.totBits.toNat + 1 < 2 ^ 64 ∧
     m.eSum.toNat + surprise ((m.context m.hist).get true).toNat
       (((m.context m.hist).get false).toNat + ((m.context m.hist).get true).toNat) < 2 ^ 128) := by
  decide +kernel

/-- Both sides of the guard. -/
theorem witness_PushHCountsEightBits :
    (atBits 0 (2 ^ 64 - 9)).monitor.totBits.toNat ≤ 2 ^ 64 - 9 ∧
    2 ^ 64 - 9 < (atBits 0 (2 ^ 64 - 8)).monitor.totBits.toNat := by decide +kernel

theorem witness_MonitorFollowsItsBitStream : State.reset.monitor.Tracks [] := by
  refine ⟨by decide, rfl, rfl, fun h b => ?_, rfl⟩
  have e : State.reset.monitor.context h = { zeros := 0, ones := 0 } := Vector.getElem_replicate _
  rw [e]; cases b <;> rfl

theorem consistent_reset : State.reset.monitor.Consistent := by decide +kernel

theorem witness_StatisticsNeverDecrease : State.reset.monitor.Consistent := consistent_reset

theorem witness_LogarithmIsExactOnPowersOfTwo :
    63 < 64 ∧ (1 ≤ 1 ∧ 2 ^ 63 * 1 < 2 ^ 64) ∧ (2 ^ 63 ≤ 2 ^ 64 - 1 ∧ 2 ^ 64 - 1 < 2 ^ (63 + 1)) := by decide

theorem witness_SurpriseFollowsItsLaws :
    (1 ≤ 2 ^ 64 - 1 ∧ 2 ^ 64 - 1 < 2 ^ 64) ∧ (1 ≤ 3 ∧ 2 ^ 62 * 3 < 2 ^ 64) ∧
    (1 ≤ 1 ∧ 1 ≤ 2 ∧ 2 ≤ 2 ^ 64 - 1) := by decide

theorem witness_SurpriseIsWithinTwoUnits : 1 ≤ 1 ∧ 1 ≤ 2 ^ 64 - 1 ∧ 2 ^ 64 - 1 < 2 ^ 64 := by decide

theorem witness_EntropySumNeverOverflows :
    (0 ≤ 2 ^ 64 - 1 ∧ 2 ^ 64 - 1 < 2 ^ 64) ∧ State.reset.monitor.Consistent ∧
    State.reset.monitor.totBits.toNat ≤ 2 ^ 64 - 9 := ⟨by decide, consistent_reset, by decide⟩

/-- Below the window; at the window with no data; at the window with data. -/
theorem witness_HealthyAnswersTheVerdict :
    (State.reset.monitor.totBits.toNat : Int) < State.reset.config.window.toNat ∧
    ((atConfig 0 0 0).config.window.toNat ≤ (atConfig 0 0 0).monitor.totBits.toNat ∧
      (atConfig 0 0 0).monitor.totBits.toNat = 0) ∧
    ((atBits 1 80000).config.window.toNat ≤ (atBits 1 80000).monitor.totBits.toNat ∧
      (atBits 1 80000).monitor.totBits.toNat ≠ 0) := by decide

theorem witness_VerdictDecidesTheSourceInequality :
    (0 ≤ 1 ∧ 0 < 1) ∧
    (2 ^ 102 - 1 < 2 ^ 102 ∧ 2 ^ 64 - 1 < 2 ^ 64 ∧ 2 ^ 32 - 1 < 2 ^ 32) := by decide

/-- With no data and after one byte. -/
theorem witness_EntropyAnswersTheMean :
    (State.reset.monitor.Consistent ∧ State.reset.monitor.totBits.toNat = 0) ∧
    ((State.reset.issue (.pushH 0xA5)).monitor.Consistent ∧
      (State.reset.issue (.pushH 0xA5)).monitor.totBits.toNat ≠ 0) := by decide +kernel

/-- One byte, the byte that reaches the window, the last byte the count has room for. -/
theorem witness_AllZeroStreamTurnsUnhealthy :
    (1 ≤ 1 ∧ 8 * 1 < 80000) ∧ (8 * 10000 = 80000 ∧ 8 * 10000 < 2 ^ 64) ∧ 8 * (2 ^ 61 - 1) < 2 ^ 64 := by decide

theorem safe_reset : State.reset.Safe := ⟨by decide, by decide, consistent_reset⟩

theorem witness_EveryStepKeepsTheInvariants : State.reset.Safe ∧ step State.reset = .next State.reset :=
  ⟨safe_reset, step_idle _ rfl⟩

/-- The registers, and both edges of every range of other numbers. -/
theorem witness_CsrrReadsTheRegisterMap :
    ∀ n ∈ ([0x03, 0x0F, 0x14, 0x1F, 0x22, 0xFF] : List Byte),
      n ∉ ([0x00, 0x01, 0x02, 0x10, 0x11, 0x12, 0x13, 0x20, 0x21] : List Byte) := by decide

/-- The widest value that fits, the narrowest that does not, a read-only register, no register. -/
theorem witness_CsrwWritesOneRegister :
    (0xFFFFFFFF : Word64).toNat < 2 ^ 32 ∧ ¬ (0x100000000 : Word64).toNat < 2 ^ 32 ∧
    (0x10 : Byte) ∉ ([0x00, 0x01, 0x02] : List Byte) ∧ (0xFF : Byte) ∉ ([0x00, 0x01, 0x02] : List Byte) ∧
    (State.reset.issue (.csrw 0x02 16)).lastStatus = some .ok := by decide

theorem witness_EntropySumHalvesAreConsistent :
    (∀ i ∈ ([.pushW 1, .rdpool, .csrw 0x02 16] : List Instr),
      (∀ d, i ≠ .pushH d) ∧ (∀ d, i ≠ .pushWH d)) ∧ State.reset.monitor.Consistent :=
  ⟨by simp, consistent_reset⟩

/-- `PUSH.WH` accepted, refused for the pool, refused for the count. -/
theorem witness_UnitsDoNotInteract :
    answer State.reset (.pushWH 0) = ok 0 ∧ answer (atPool 4) (.pushWH 0) = refused .errPoolBusy ∧
    answer (atBits 0 (2 ^ 64 - 8)) (.pushWH 0) = refused .errCntSat := by decide +kernel

theorem witness_HiddenStateIsNotReadOut :
    let t : State := { State.reset with whitener := { Whitener.reset with sponge := { Sponge.zero with absPos := 9 } } }
    State.reset.whitener.sponge.absPos ≠ t.whitener.sponge.absPos ∧ State.reset.SameVisible t := by
  exact ⟨by decide, rfl, rfl, rfl, rfl, rfl, rfl, rfl⟩

theorem witness_QueriesAreIdempotent : (atPool 2047).whitener.poolRd.val ≠ 2048 := by decide

theorem witness_ResetIsTotal : ((atChunk 3).present .reset).inbox = .reset :: [] := by decide

theorem witness_ChunkPushRunsOneRound :
    State.reset.whitener.poolRd.val = 2048 ∧ State.reset.whitener.chCnt.val = 0 ∧
    State.reset.whitener.StoresCanonical := by decide

/-- From a pool with one byte left: one chunk is fetched for 2 to 2049 bytes, none for fewer, and 2050
bytes make a further fetch, which fails or is not there. From an empty pool: a fetch that fails at once. -/
theorem witness_HostReadReturnsTheOutputStream :
    let s := atPool 2047
    let chunk : Vector Byte 256 := Vector.replicate 256 1
    let stream := fun chunks : List (Vector Byte 256) =>
      s.whitener.undelivered ++ outputFrom s.whitener.sponge (chunks.map Vector.toList)
    s.whitener.chCnt.val = 0 ∧ s.whitener.StoresCanonical ∧
    s.monitor.totBits.toNat + 2048 * [chunk].length < 2 ^ 64 ∧
    (2 ≤ (stream [chunk]).length ∧ (stream [chunk]).length < 2 + 2048) ∧
    (2049 ≤ (stream [chunk]).length ∧ (stream [chunk]).length < 2049 + 2048) ∧
    1 ≤ (stream []).length ∧
    ((stream [chunk]).length < 2050 ∧ ([none, some chunk] : List RawFetch).head?.join = none ∧
      ([] : List RawFetch).head?.join = none) ∧
    State.reset.whitener.poolRd.val = 2048 := by
  intro s chunk stream
  have hl (chunks : List (Vector Byte 256)) : (stream chunks).length = 1 + 2048 * chunks.length := by
    simp only [stream, List.length_append, undelivered_length, outputFrom_length, List.length_map]; rfl
  simp only [hl, List.length_singleton, List.length_nil]
  decide

end Sys2Proof.Tests
end

section
/-! ### Steps on a command that decodes (00_scope.md R10, 20_memory.md R66) -/

namespace Sys2Proof.Machine

/-- The companion of `step_idle`, `step_reset` and `step_illegal` for a legal command: it is sampled once,
taken off the port, and executed as one step. -/
theorem step_command (s : State) (c : Command) (rest : List PortEvent) (i : Instr)
    (h : s.inbox = .command c :: rest) (hd : decode c.cmd c.wdata = some i) :
    step s = exec i { s with inbox := rest } := by
  simp only [step, h, hd]

/-- Settles O6, by the step's equation for a legal command. -/
theorem stepRunsTheDecodedCommand : Obligations.StepRunsTheDecodedCommand :=
  step_command

end Sys2Proof.Machine
end

section
/-! ### What one command does to the two units

One inversion lemma for all nine commands, `exec_answered`: the invariants and the histories of
10_state.md follow from it by a case analysis on the unit, not on the command. -/

namespace Sys2Proof.Machine

/-- Everything that command `i`, answered with `r`, can do to the whitener `w`. -/
inductive WhitenerStep (w : Whitener) (i : Instr) (r : Response) (w' : Whitener) : Prop
  | unchanged (hi : r.status = .ok → bytesToWhitener i = [] ∧ i ≠ .discard ∧ i ≠ .rdpool) (hw : w' = w)
  | pushed (data : Byte) (hi : bytesToWhitener i = [data]) (hr : r.status = .ok)
      (hempty : w.poolRd.val = 2048) (hw : w' = pushByte data w)
  | discarded (hi : i = .discard) (hr : r.status = .ok) (hw : w' = { w with chCnt := 0 })
  | delivered (p : Fin 2049) (hp : p.val = w.poolRd.val + 1) (hi : i = .rdpool)
      (hr : r = { status := .ok, rdata := (w.pool.read w.poolRd.val).setWidth 64 })
      (hw : w' = { w with poolRd := p })

/-- Everything that command `i`, answered with `r`, can do to the monitor `m`. -/
inductive MonitorStep (m : Monitor) (i : Instr) (r : Response) (m' : Monitor) : Prop
  | unchanged (hi : r.status = .ok → bytesToMonitor i = []) (hm : m' = m)
  | pushed (data : Byte) (hi : bytesToMonitor i = [data]) (hr : r.status = .ok)
      (hroom : m.saturated = false) (hm : m' = monitorByte data m)

/-- State `t` is what command `i` makes of `s` when it answers `r`: one response, and one of the listed
steps in each unit. -/
structure Answered (i : Instr) (s t : State) (r : Response) : Prop where
  outbox : t.outbox = r :: s.outbox
  whitener : WhitenerStep s.whitener i r t.whitener
  monitor : MonitorStep s.monitor i r t.monitor

/-- A refusal, or a success of a command that only reads, moves neither unit. -/
theorem answered_respond {i : Instr} (s : State) (code : Status) (d : Word64)
    (h : code = .ok → bytesToWhitener i = [] ∧ i ≠ .discard ∧ i ≠ .rdpool ∧ bytesToMonitor i = []) :
    Answered i s (s.respond code d) { status := code, rdata := d } where
  outbox := rfl
  whitener := .unchanged (fun e => let ⟨hw, hd, hrd, _⟩ := h e; ⟨hw, hd, hrd⟩) rfl
  monitor := .unchanged (fun e => let ⟨_, _, _, hm⟩ := h e; hm) rfl

/-- Every command answers, in a way `Answered` lists (00_scope.md R10, 60_exceptions.md R205). -/
theorem exec_answered (i : Instr) (s : State) : ∃ t r, exec i s = .next t ∧ Answered i s t r := by
  cases i with
  | pushW data =>
    by_cases hb : s.whitener.poolBusy = true
    · exact ⟨_, _, (exec_pushW data s).trans (if_pos hb), answered_respond s _ _ nofun⟩
    · have hempty := (poolBusy_eq_false_iff _).1 (eq_false_of_ne_true hb)
      exact ⟨_, _, (exec_pushW data s).trans (if_neg hb), rfl, .pushed data rfl rfl hempty rfl,
        .unchanged (fun _ => rfl) rfl⟩
  | pushH data =>
    by_cases hs : s.monitor.saturated = true
    · exact ⟨_, _, (exec_pushH data s).trans (if_pos hs), answered_respond s _ _ nofun⟩
    · exact ⟨_, _, (exec_pushH data s).trans (if_neg hs), rfl, .unchanged (fun _ => ⟨rfl, nofun, nofun⟩) rfl,
        .pushed data rfl rfl (eq_false_of_ne_true hs) rfl⟩
  | pushWH data =>
    by_cases hb : s.whitener.poolBusy = true
    · exact ⟨_, _, (exec_pushWH data s).trans (if_pos hb), answered_respond s _ _ nofun⟩
    by_cases hs : s.monitor.saturated = true
    · exact ⟨_, _, (exec_pushWH data s).trans ((if_neg hb).trans (if_pos hs)), answered_respond s _ _ nofun⟩
    · have hempty := (poolBusy_eq_false_iff _).1 (eq_false_of_ne_true hb)
      exact ⟨_, _, (exec_pushWH data s).trans ((if_neg hb).trans (if_neg hs)), rfl, .pushed data rfl rfl hempty rfl,
        .pushed data rfl rfl (eq_false_of_ne_true hs) rfl⟩
  | rdpool =>
    by_cases he : s.whitener.poolRd.val = 2048
    · exact ⟨_, _, exec_rdpool_empty s he, answered_respond s _ _ nofun⟩
    · obtain ⟨p, hp, e⟩ := exec_rdpool_delivers s he
      exact ⟨_, _, e, rfl, .delivered p hp rfl rfl rfl, .unchanged (fun _ => rfl) rfl⟩
  | discard =>
    exact ⟨_, _, exec_discard s, rfl, .discarded rfl rfl rfl, .unchanged (fun _ => rfl) rfl⟩
  | healthy => exact ⟨_, _, exec_healthy s, answered_respond s _ _ fun _ => ⟨rfl, nofun, nofun, rfl⟩⟩
  | entropy => exact ⟨_, _, exec_entropy s, answered_respond s _ _ fun _ => ⟨rfl, nofun, nofun, rfl⟩⟩
  | csrr csr =>
    rw [exec_csrr]
    cases csrOfNumber csr with
    | some reg => exact ⟨_, _, rfl, answered_respond s _ _ fun _ => ⟨rfl, nofun, nofun, rfl⟩⟩
    | none => exact ⟨_, _, rfl, answered_respond s _ _ nofun⟩
  | csrw csr value =>
    rw [exec_csrw]
    cases (csrOfNumber csr).bind fun reg => csrWrite reg value s.config with
    | some c => exact ⟨_, _, rfl, rfl, .unchanged (fun _ => ⟨rfl, nofun, nofun⟩) rfl,
        .unchanged (fun _ => rfl) rfl⟩
    | none => exact ⟨_, _, rfl, answered_respond s _ _ nofun⟩

/-- The same, for a next state that is already named. -/
theorem answered_of_exec {i : Instr} {s t : State} (h : exec i s = .next t) : ∃ r, Answered i s t r := by
  obtain ⟨t', r, e, a⟩ := exec_answered i s
  obtain rfl : t' = t := by simpa [e] using h
  exact ⟨r, a⟩

end Sys2Proof.Machine
end

section
/-! ### The invariants of the two units (10_state.md R29, R32, R34) -/

namespace Sys2Proof.Machine

/-- A byte is delivered only while the pool holds one, when nothing is gathered (10_state.md R29). -/
theorem gathersOnlyWhenEmpty_of_delivered {w : Whitener} (h : w.GathersOnlyWhenEmpty) {p : Fin 2049}
    (hp : p.val = w.poolRd.val + 1) : Whitener.GathersOnlyWhenEmpty { w with poolRd := p } := by
  intro h0
  have hfull := h h0
  have := p.isLt
  omega

theorem WhitenerStep.gathersOnlyWhenEmpty {w w' : Whitener} {i : Instr} {r : Response}
    (st : WhitenerStep w i r w') (h : w.GathersOnlyWhenEmpty) : w'.GathersOnlyWhenEmpty := by
  cases st with
  | unchanged _ hw => exact hw ▸ h
  | pushed data _ _ hempty hw => exact hw ▸ pushByte_gathersOnlyWhenEmpty data w hempty
  | discarded _ _ hw => exact hw ▸ fun h0 => absurd h0 (lt_irrefl _)
  | delivered p hp _ _ hw => exact hw ▸ gathersOnlyWhenEmpty_of_delivered h hp

theorem WhitenerStep.storesCanonical {w w' : Whitener} {i : Instr} {r : Response}
    (st : WhitenerStep w i r w') (h : w.StoresCanonical) : w'.StoresCanonical := by
  cases st with
  | unchanged _ hw => exact hw ▸ h
  | pushed data _ _ _ hw => exact hw ▸ pushByte_storesCanonical data w h
  | discarded _ _ hw => exact hw ▸ h
  | delivered _ _ _ _ hw => exact hw ▸ h

theorem MonitorStep.consistent {m m' : Monitor} {i : Instr} {r : Response}
    (st : MonitorStep m i r m') (h : m.Consistent) : m'.Consistent := by
  cases st with
  | unchanged _ hm => exact hm ▸ h
  | pushed data _ _ hroom hm => exact hm ▸ (monitorByte_keeps data h hroom).1

/-- A command keeps the invariants. -/
theorem Answered.safe {i : Instr} {s t : State} {r : Response} (a : Answered i s t r) (h : s.Safe) :
    t.Safe := by
  obtain ⟨hgather, hstores, hmon⟩ := h
  exact ⟨a.whitener.gathersOnlyWhenEmpty hgather, a.whitener.storesCanonical hstores,
    a.monitor.consistent hmon⟩

/-- Every context of the monitor is unvisited after reset (10_state.md R50). -/
@[simp] theorem monitor_reset_context (h : BitVec 7) :
    Monitor.reset.context h = { zeros := 0, ones := 0 } := Vector.getElem_replicate _

theorem monitor_reset_total : Monitor.reset.total = 0 := by
  simp [Monitor.total, Monitor.reset, Counters.visits]

theorem monitor_reset_consistent : Monitor.reset.Consistent := by
  refine Monitor.BitConsistent.consistent ⟨monitor_reset_total, fun h => ?_, Nat.zero_le _⟩ rfl
  exact absurd h (lt_irrefl 0)

theorem whitener_reset_storesCanonical : Whitener.reset.StoresCanonical := ⟨rfl, rfl, rfl, rfl⟩

/-- The invariants look at the two units alone, and hold of the reset ones. -/
theorem safe_of_reset_units {s : State} (hw : s.whitener = Whitener.reset) (hm : s.monitor = Monitor.reset) :
    s.Safe := by
  rw [State.Safe, hw, hm]
  exact ⟨fun _ => rfl, whitener_reset_storesCanonical, monitor_reset_consistent⟩

/-- Settles O45, by the inversion of a command for a legal word; an idle step and an illegal word leave
the units alone, and `RST` gives the reset ones. -/
theorem everyStepKeepsTheInvariants : Obligations.EveryStepKeepsTheInvariants := by
  intro s t hsafe hstep
  rcases hin : s.inbox with _ | ⟨_ | _, rest⟩
  case nil =>
    obtain rfl : s = t := by simpa [step_idle s hin] using hstep
    exact hsafe
  case cons.command c =>
    cases hd : decode c.cmd c.wdata with
    | none =>
      obtain rfl : State.respond { s with inbox := rest } .errIllegal 0 = t := by
        simpa [step_illegal s c rest hin hd] using hstep
      exact hsafe
    | some i =>
      rw [step_command s c rest i hin hd] at hstep
      obtain ⟨r, a⟩ := answered_of_exec hstep
      exact a.safe hsafe
  case cons.reset =>
    obtain rfl : assertReset { s with inbox := rest } = t := by
      simpa [step_reset s rest hin] using hstep
    exact safe_of_reset_units rfl rfl

/-- Settles O22: of the steps a whitener can make, only a push that completes a chunk moves the sponge. -/
theorem spongeChangesOnlyInARound : Obligations.SpongeChangesOnlyInARound := by
  intro i s
  obtain ⟨t, r, e, a⟩ := exec_answered i s
  refine ⟨t, e, ?_⟩
  cases a.whitener with
  | unchanged _ hw => left; rw [hw]
  | discarded _ _ hw => left; rw [hw]
  | delivered _ _ _ _ hw => left; rw [hw]
  | pushed data hi _ hempty hw =>
    rcases pushByte_cases data s.whitener with ⟨-, hsp, -⟩ | ⟨hfull, hsp, -⟩
    · left; rw [hw, hsp]
    · right
      refine ⟨hempty, hfull, data, ?_, by rw [hw, hsp]⟩
      cases i <;> simp_all [bytesToWhitener]

end Sys2Proof.Machine
end

section
/-! ### The whitener's history (10_state.md R49, 40_whitener_ops.md R112) -/

namespace Sys2Proof.Machine

/-- A command that neither pushed, discarded nor delivered leaves the history alone. -/
theorem after_of_unchanged {i : Instr} {r : Response} (h : WhitenerHistory)
    (hi : r.status = .ok → bytesToWhitener i = [] ∧ i ≠ .discard ∧ i ≠ .rdpool) : h.after i r = h := by
  by_cases hr : r.status = .ok
  · cases i <;> simp_all [WhitenerHistory.after, bytesToWhitener]
  · simp [WhitenerHistory.after, hr]

theorem after_of_pushed {i : Instr} {r : Response} {data : Byte} (h : WhitenerHistory)
    (hi : bytesToWhitener i = [data]) (hr : r.status = .ok) : h.after i r = h.push data := by
  cases i <;> simp_all [WhitenerHistory.after, bytesToWhitener]

/-- The undelivered bytes are read off `POOL` and `POOLRD` alone. -/
theorem undelivered_congr {v w : Whitener} (hp : v.pool = w.pool) (hr : v.poolRd = w.poolRd) :
    v.undelivered = w.undelivered := by
  simp only [Whitener.undelivered, Whitener.poolCnt, hp, hr]

/-- The 256 bytes that a round absorbs are the gathered ones and the pushed one. -/
theorem chunk_of_last_push {w : Whitener} (hwf : w.chunk.wf = true) (hfull : w.chCnt.val = 255) (data : Byte) :
    (w.chunk.write 255 data).firstBytes 256 = w.chunk.firstBytes w.chCnt.val ++ [data] := by
  rw [hfull]; exact firstBytes_write hwf 255 data

/-- A push into an empty pool continues the history. -/
theorem tracks_push {h : WhitenerHistory} {w : Whitener} (ht : h.Tracks w) (hwf : w.chunk.wf = true)
    (hempty : w.poolRd.val = 2048) (data : Byte) : (h.push data).Tracks (pushByte data w) := by
  have hgather := pushByte_gathersOnlyWhenEmpty data w hempty
  obtain ⟨hlen, hsponge, hgot, hout, -⟩ := ht
  have hcnt : h.gathered.length = w.chCnt.val := by rw [hgot, firstBytes_length]
  rcases pushByte_cases data w with ⟨hlt, hsp, hp, hr, hc, hk⟩ | ⟨hfull, hsp, -, -, hc, -, hu⟩
  · have e : h.push data = { h with gathered := h.gathered ++ [data] } := by
      rw [WhitenerHistory.push, if_neg (by omega)]
    rw [e]
    refine ⟨hlen, hsp.trans hsponge, ?_, (undelivered_congr hp hr).symm ▸ hout, hgather⟩
    rw [hk, hc, firstBytes_write hwf, hgot]
  · have e : h.push data = { h with gathered := [], chunks := h.chunks ++ [h.gathered ++ [data]] } := by
      rw [WhitenerHistory.push, if_pos (by omega)]
    have habs : (pushByte data w).sponge =
        absorbBytes (absorbBytes Sponge.zero h.chunks.flatten) (h.gathered ++ [data]) := by
      rw [hsp, chunk_of_last_push hwf hfull, hsponge, hgot]
    rw [undelivered_of_empty hempty, List.append_nil] at hout
    rw [e]
    refine ⟨?_, ?_, by rw [hc]; rfl, ?_, hgather⟩
    · intro c hmem
      rcases List.mem_append.1 hmem with hold | hnew
      · exact hlen c hold
      · rw [List.mem_singleton.1 hnew, List.length_append, hcnt, hfull]; rfl
    · simpa [absorbBytes_append] using habs
    · rw [hu, habs, hout, outputStream, outputStream, outputFrom_append]

/-- `DISCARD` empties the gathered bytes and keeps the rest of the history. -/
theorem tracks_discard {h : WhitenerHistory} {w : Whitener} (ht : h.Tracks w) :
    WhitenerHistory.Tracks { h with gathered := [] } { w with chCnt := 0 } := by
  obtain ⟨hlen, hsponge, -, hout, -⟩ := ht
  exact ⟨hlen, hsponge, rfl, hout, fun h0 => absurd h0 (lt_irrefl _)⟩

/-- `RDPOOL` moves one byte from the undelivered to the delivered ones. -/
theorem tracks_deliver {h : WhitenerHistory} {w : Whitener} (ht : h.Tracks w) {p : Fin 2049}
    (hp : p.val = w.poolRd.val + 1) :
    WhitenerHistory.Tracks { h with delivered := h.delivered ++ [w.pool.read w.poolRd.val] }
      { w with poolRd := p } := by
  obtain ⟨hlen, hsponge, hgot, hout, hgather⟩ := ht
  rw [undelivered_of_held hp] at hout
  exact ⟨hlen, hsponge, hgot, by simpa using hout, gathersOnlyWhenEmpty_of_delivered hgather hp⟩

theorem WhitenerStep.tracks {w w' : Whitener} {i : Instr} {r : Response} {h : WhitenerHistory}
    (st : WhitenerStep w i r w') (ht : h.Tracks w) (hwf : w.chunk.wf = true) : (h.after i r).Tracks w' := by
  cases st with
  | unchanged hi hw => rw [hw, after_of_unchanged h hi]; exact ht
  | pushed data hi hr hempty hw => rw [hw, after_of_pushed h hi hr]; exact tracks_push ht hwf hempty data
  | discarded hi hr hw =>
    have e : h.after i r = { h with gathered := [] } := by subst hi; exact if_pos hr
    rw [hw, e]; exact tracks_discard ht
  | delivered p hp hi hr hw =>
    have e : h.after i r = { h with delivered := h.delivered ++ [w.pool.read w.poolRd.val] } := by
      subst hi hr; simp [WhitenerHistory.after]
    rw [hw, e]; exact tracks_deliver ht hp

/-- Settles O23: each of the steps a whitener can make continues its history. -/
theorem whitenerFollowsItsHistory : Obligations.WhitenerFollowsItsHistory := by
  intro h s i ht hstores
  obtain ⟨t, r, e, a⟩ := exec_answered i s
  exact ⟨t, r, e, a.outbox, a.whitener.tracks ht hstores.1⟩

end Sys2Proof.Machine
end

section
/-! ### What a command can depend on (10_state.md R25, R27, R48) -/

namespace Sys2Proof.Machine

/-- Two states that agree on everything a guard, a query or `CSRR` reads: all but `S`, `ABSPOS`, `CNT` and
the two byte stores. -/
structure State.SameRegisters (s t : State) : Prop where
  chCnt : t.whitener.chCnt = s.whitener.chCnt
  poolRd : t.whitener.poolRd = s.whitener.poolRd
  hist : t.monitor.hist = s.monitor.hist
  eSum : t.monitor.eSum = s.monitor.eSum
  totBits : t.monitor.totBits = s.monitor.totBits
  config : t.config = s.config

section
variable {s t : State}

theorem State.SameRegisters.poolBusy (h : s.SameRegisters t) : t.whitener.poolBusy = s.whitener.poolBusy := by
  rw [Whitener.poolBusy, h.poolRd, Whitener.poolBusy]

theorem State.SameRegisters.saturated (h : s.SameRegisters t) : t.monitor.saturated = s.monitor.saturated := by
  rw [Monitor.saturated, h.totBits, Monitor.saturated]

theorem State.SameRegisters.isHealthy (h : s.SameRegisters t) : t.isHealthy = s.isHealthy := by
  rw [State.isHealthy, h.eSum, h.totBits, h.config, State.isHealthy]

theorem State.SameRegisters.estimate (h : s.SameRegisters t) : t.monitor.estimate = s.monitor.estimate := by
  rw [Monitor.estimate, h.eSum, h.totBits, Monitor.estimate]

theorem State.SameRegisters.csrRead (h : s.SameRegisters t) (r : Csr) : csrRead r t = csrRead r s := by
  cases r <;> simp only [Machine.csrRead, Whitener.poolCnt, h.chCnt, h.poolRd, h.hist, h.eSum, h.totBits, h.config]

theorem State.SameVisible.sameRegisters (h : s.SameVisible t) : s.SameRegisters t := by
  obtain ⟨hc, hr, -, hh, he, ht, hcfg⟩ := h
  exact ⟨hc, hr, hh, he, ht, hcfg⟩

/-- The other registers and the pool byte that comes next fix the response of every command. -/
theorem exec_same_response (i : Instr) (h : s.SameRegisters t)
    (hpool : s.whitener.poolRd.val ≠ 2048 →
      t.whitener.pool.read s.whitener.poolRd.val = s.whitener.pool.read s.whitener.poolRd.val) :
    ∃ s' t' r, exec i s = .next s' ∧ exec i t = .next t' ∧
      s'.outbox = r :: s.outbox ∧ t'.outbox = r :: t.outbox := by
  cases i with
  | pushW data =>
    rw [exec_pushW, exec_pushW, h.poolBusy]
    split_ifs <;> exact ⟨_, _, _, rfl, rfl, rfl, rfl⟩
  | pushH data =>
    rw [exec_pushH, exec_pushH, h.saturated]
    split_ifs <;> exact ⟨_, _, _, rfl, rfl, rfl, rfl⟩
  | pushWH data =>
    rw [exec_pushWH, exec_pushWH, h.poolBusy, h.saturated]
    split_ifs <;> exact ⟨_, _, _, rfl, rfl, rfl, rfl⟩
  | rdpool =>
    have hrd : t.whitener.poolRd.val = s.whitener.poolRd.val := congrArg Fin.val h.poolRd
    by_cases he : s.whitener.poolRd.val = 2048
    · exact ⟨_, _, _, exec_rdpool_empty s he, exec_rdpool_empty t (hrd.trans he), rfl, rfl⟩
    · obtain ⟨p, -, es⟩ := exec_rdpool_delivers s he
      obtain ⟨q, -, et⟩ := exec_rdpool_delivers t (hrd ▸ he)
      refine ⟨_, _, _, es, et, rfl, ?_⟩
      rw [respond_outbox, hrd, hpool he]
  | discard => exact ⟨_, _, _, exec_discard s, exec_discard t, rfl, rfl⟩
  | healthy => exact ⟨_, _, _, exec_healthy s, exec_healthy t, rfl, by rw [h.isHealthy]; rfl⟩
  | entropy => exact ⟨_, _, _, exec_entropy s, exec_entropy t, rfl, by rw [h.estimate]; rfl⟩
  | csrr csr =>
    rw [exec_csrr, exec_csrr]
    cases csrOfNumber csr with
    | some reg => exact ⟨_, _, _, rfl, rfl, rfl, by rw [h.csrRead]; rfl⟩
    | none => exact ⟨_, _, _, rfl, rfl, rfl, rfl⟩
  | csrw csr value =>
    rw [exec_csrw, exec_csrw, h.config]
    cases (csrOfNumber csr).bind fun reg => csrWrite reg value s.config <;>
      exact ⟨_, _, _, rfl, rfl, rfl, rfl⟩

end

/-- Settles O51: what the host sees differ is a register or a pool byte, and these are equal. -/
theorem hiddenStateIsNotReadOut : Obligations.HiddenStateIsNotReadOut := by
  intro i s t h
  have hreg := h.sameRegisters
  obtain ⟨-, -, hpool, -⟩ := h
  exact exec_same_response i hreg fun _ => by rw [hpool]

/-! ### Bytes that hold no value -/

theorem Whitener.SameHeld.refl (w : Whitener) : w.SameHeld w :=
  ⟨rfl, rfl, rfl, fun _ _ => rfl, fun _ _ _ => rfl⟩

theorem State.SameHeld.sameRegisters {s t : State} (h : s.SameHeld t) : s.SameRegisters t := by
  obtain ⟨⟨-, hc, hr, -⟩, hm, hcfg, -⟩ := h
  exact ⟨hc, hr, by rw [hm], by rw [hm], by rw [hm], hcfg⟩

/-- A second state that holds the same differs from the first in its whitener alone. -/
theorem sameHeld_iff {s t : State} :
    s.SameHeld t ↔ ∃ w, s.whitener.SameHeld w ∧ t = { s with whitener := w } := by
  constructor
  · rintro ⟨hw, hm, hc, hi, ho⟩
    exact ⟨t.whitener, hw, by rw [← hm, ← hc, ← hi, ← ho]⟩
  · rintro ⟨w, hw, rfl⟩
    exact ⟨hw, rfl, rfl, rfl, rfl⟩

/-- Writing the same byte at `CHCNT` keeps the bytes up to it the same. -/
theorem sameHeld_chunk_write {v w : Whitener} (h : v.SameHeld w) (hv : v.chunk.wf = true)
    (hw : w.chunk.wf = true) (data : Byte) {a : Nat} (ha : a < v.chCnt.val + 1) :
    (w.chunk.write w.chCnt.val data).read a = (v.chunk.write v.chCnt.val data).read a := by
  obtain ⟨-, hc, -, hchunk, -⟩ := h
  rw [read_write hv, read_write hw, hc]
  split_ifs with he
  · rfl
  · exact hchunk a (by omega)

/-- A push reads, of the two stores, the gathered bytes alone. -/
theorem sameHeld_pushByte {v w : Whitener} (h : v.SameHeld w) (hv : v.chunk.wf = true)
    (hw : w.chunk.wf = true) (data : Byte) : (pushByte data v).SameHeld (pushByte data w) := by
  have hwrite := fun a => sameHeld_chunk_write h hv hw data (a := a)
  obtain ⟨hsp, hc, hr, -, hpool⟩ := h
  have hcv : w.chCnt.val = v.chCnt.val := congrArg Fin.val hc
  by_cases hlt : v.chCnt.val + 1 < 256
  · rw [pushByte_gathers data v hlt, pushByte_gathers data w (hcv ▸ hlt)]
    exact ⟨hsp, Fin.ext (congrArg (· + 1) hcv), hr, hwrite, hpool⟩
  · rw [pushByte_rounds data v hlt, pushByte_rounds data w (hcv ▸ hlt)]
    have hbytes : (w.chunk.write w.chCnt.val data).firstBytes 256 =
        (v.chunk.write v.chCnt.val data).firstBytes 256 :=
      firstBytes_congr fun a ha => hwrite a (by have := v.chCnt.isLt; omega)
    have hsponge : (round { w with chunk := w.chunk.write w.chCnt.val data }).sponge =
        (round { v with chunk := v.chunk.write v.chCnt.val data }).sponge := by
      rw [round_sponge, round_sponge, hsp, hbytes]
    refine ⟨hsponge, rfl, rfl, fun a ha => absurd ha (Nat.not_lt_zero a), fun a _ _ => ?_⟩
    rw [round_pool, round_pool, hsponge]

/-- The two whiteners go on holding the same when both deliver a byte. -/
theorem sameHeld_deliver {v w : Whitener} (h : v.SameHeld w) {p q : Fin 2049}
    (hp : p.val = v.poolRd.val + 1) (hq : q.val = w.poolRd.val + 1) :
    Whitener.SameHeld { v with poolRd := p } { w with poolRd := q } := by
  obtain ⟨hsp, hc, hr, hchunk, hpool⟩ := h
  have hpq : q = p := Fin.ext (by rw [hp, hq, hr])
  exact ⟨hsp, hc, hpq, hchunk, fun a ha => hpool a (by simp only at ha; omega)⟩

/-- Every command keeps two states holding the same, port and all. -/
theorem exec_sameHeld (i : Instr) {s t : State} (h : s.SameHeld t) (hs : s.whitener.chunk.wf = true)
    (ht : t.whitener.chunk.wf = true) :
    ∃ s' t', exec i s = .next s' ∧ exec i t = .next t' ∧ s'.SameHeld t' := by
  have hreg := h.sameRegisters
  obtain ⟨w, hw, rfl⟩ := sameHeld_iff.1 h
  have hpush := sameHeld_pushByte hw hs ht
  cases i with
  | pushW data =>
    rw [exec_pushW, exec_pushW, hreg.poolBusy]
    split_ifs
    · exact ⟨_, _, rfl, rfl, hw, rfl, rfl, rfl, rfl⟩
    · exact ⟨_, _, rfl, rfl, hpush data, rfl, rfl, rfl, rfl⟩
  | pushH data =>
    rw [exec_pushH, exec_pushH]
    split_ifs <;> exact ⟨_, _, rfl, rfl, hw, rfl, rfl, rfl, rfl⟩
  | pushWH data =>
    rw [exec_pushWH, exec_pushWH, hreg.poolBusy]
    split_ifs
    · exact ⟨_, _, rfl, rfl, hw, rfl, rfl, rfl, rfl⟩
    · exact ⟨_, _, rfl, rfl, hw, rfl, rfl, rfl, rfl⟩
    · exact ⟨_, _, rfl, rfl, hpush data, rfl, rfl, rfl, rfl⟩
  | rdpool =>
    have hrd : w.poolRd.val = s.whitener.poolRd.val := congrArg Fin.val hreg.poolRd
    by_cases he : s.whitener.poolRd.val = 2048
    · exact ⟨_, _, exec_rdpool_empty s he, exec_rdpool_empty _ (hrd.trans he), hw, rfl, rfl, rfl, rfl⟩
    · obtain ⟨p, hp, es⟩ := exec_rdpool_delivers s he
      obtain ⟨q, hq, et⟩ := exec_rdpool_delivers { s with whitener := w } (hrd ▸ he)
      refine ⟨_, _, es, et, sameHeld_deliver hw hp hq, rfl, rfl, rfl, ?_⟩
      obtain ⟨-, -, -, -, hpool⟩ := hw
      have hbyte := hpool s.whitener.poolRd.val le_rfl (by omega)
      rw [respond_outbox, respond_outbox, hrd, hbyte]
  | discard =>
    obtain ⟨hsp, -, hr, -, hpool⟩ := hw
    exact ⟨_, _, exec_discard _, exec_discard _,
      ⟨hsp, rfl, hr, fun a ha => absurd ha (Nat.not_lt_zero a), hpool⟩, rfl, rfl, rfl, rfl⟩
  | healthy => exact ⟨_, _, exec_healthy _, exec_healthy _, hw, rfl, rfl, rfl, rfl⟩
  | entropy => exact ⟨_, _, exec_entropy _, exec_entropy _, hw, rfl, rfl, rfl, rfl⟩
  | csrr csr =>
    rw [exec_csrr, exec_csrr]
    cases csrOfNumber csr with
    | some reg => exact ⟨_, _, rfl, rfl, hw, rfl, rfl, rfl, by simp only [respond_outbox, hreg.csrRead]⟩
    | none => exact ⟨_, _, rfl, rfl, hw, rfl, rfl, rfl, rfl⟩
  | csrw csr value =>
    rw [exec_csrw, exec_csrw]
    cases (csrOfNumber csr).bind fun reg => csrWrite reg value s.config <;>
      exact ⟨_, _, rfl, rfl, hw, rfl, rfl, rfl, rfl⟩

/-- Settles O21, by `exec_sameHeld` for a command; the other steps do not read the stores. -/
theorem bytesWithoutValueAreNeverRead : Obligations.BytesWithoutValueAreNeverRead := by
  intro s t h hs ht
  have hsame := h
  obtain ⟨hw, hm, hc, hin', ho⟩ := h
  rcases hin : s.inbox with _ | ⟨_ | _, rest⟩
  case nil => exact ⟨_, _, step_idle s hin, step_idle t (hin'.trans hin), hsame⟩
  case cons.command c =>
    cases hd : decode c.cmd c.wdata with
    | none =>
      exact ⟨_, _, step_illegal s c rest hin hd, step_illegal t c rest (hin'.trans hin) hd,
        hw, hm, hc, rfl, congrArg (List.cons _) ho⟩
    | some i =>
      rw [step_command s c rest i hin hd, step_command t c rest i (hin'.trans hin) hd]
      exact exec_sameHeld i ⟨hw, hm, hc, rfl, ho⟩ hs.1 ht.1
  case cons.reset =>
    exact ⟨_, _, step_reset s rest hin, step_reset t rest (hin'.trans hin), .refl _, rfl, rfl, rfl, ho⟩

end Sys2Proof.Machine
end

section
/-! ### The monitor's bit stream (10_state.md R30 to R34, 42_health_monitor_ops.md R157, R158) -/

namespace Sys2Proof.Machine

/-- A push that is not refused has room for its eight bits (42_health_monitor_ops.md R151). -/
theorem room_of_not_saturated {m : Monitor} (h : m.saturated = false) : m.totBits.toNat + 8 < 2 ^ 64 := by
  have hle : ¬ 2 ^ 64 - 9 < m.totBits.toNat := fun hc => by simp [(saturated_iff m).2 hc] at h
  omega

/-- A counter with room counts one observation of its own value exactly, and no other. -/
theorem bump_get_toNat (k : Counters) (b c : Bool) (h : (k.get b).toNat + 1 < 2 ^ 64) :
    ((k.bump b).get c).toNat = (k.get c).toNat + if b = c then 1 else 0 := by
  rw [bump_get]
  by_cases hcb : c = b
  · subst hcb
    rw [if_pos rfl, if_pos rfl, BitVec.toNat_add]
    exact Nat.mod_eq_of_lt h
  · rw [if_neg hcb, if_neg (Ne.symm hcb), Nat.add_zero]

/-- `Monitor.Tracks` without the part about whole bytes: what holds after every single bit. -/
structure Monitor.TracksBits (past : List Bool) (m : Monitor) : Prop where
  hist : m.hist = contextAfter past
  totBits : m.totBits.toNat = past.length
  counts : ∀ h b, ((m.context h).get b).toNat = timesSeen h b past
  eSum : m.eSum.toNat = codeLength past

theorem tracks_iff (past : List Bool) (m : Monitor) :
    m.Tracks past ↔ m.TracksBits past ∧ past.length % 8 = 0 := by
  constructor
  · rintro ⟨hh, ht, h8, hc, he⟩
    exact ⟨⟨hh, ht, hc, he⟩, h8⟩
  · rintro ⟨⟨hh, ht, hc, he⟩, h8⟩
    exact ⟨hh, ht, h8, hc, he⟩

theorem timesSeen_cons (h : BitVec 7) (b bit : Bool) (past : List Bool) :
    timesSeen h b (bit :: past) = timesSeen h b past + if contextAfter past = h ∧ bit = b then 1 else 0 := rfl

theorem codeLength_cons (bit : Bool) (past : List Bool) :
    codeLength (bit :: past) = codeLength past + surprise (timesSeen (contextAfter past) bit past)
      (timesSeen (contextAfter past) false past + timesSeen (contextAfter past) true past) := rfl

/-- What the monitor charges for the next bit is what the code length grows by. -/
theorem Monitor.TracksBits.surprise_eq {past : List Bool} {m : Monitor} (h : m.TracksBits past) (b : Bool) :
    m.eSum.toNat + surprise ((m.context m.hist).get b).toNat (m.context m.hist).visits =
      codeLength (b :: past) := by
  rw [visits_eq, h.counts, h.counts, h.counts, h.eSum, h.hist, codeLength_cons]

/-- One bit continues the stream (42_health_monitor_ops.md R156). -/
theorem monitorBit_tracksBits {past : List Bool} {m : Monitor} (h : m.TracksBits past) (b : Bool)
    (hroom : past.length + 1 < 2 ^ 64) : (monitorBit m b).TracksBits (b :: past) where
  hist := by
    apply BitVec.eq_of_toNat_eq
    rw [monitorBit_hist, contextAfter_cons, h.hist]
  totBits := by
    rw [monitorBit_totBits_toNat m b (by rw [h.totBits]; exact hroom), h.totBits, List.length_cons]
  counts := by
    intro k c
    rw [monitorBit_context, timesSeen_cons, ← h.counts, ← h.hist]
    by_cases hk : k = m.hist
    · have hseen := timesSeen_le_visits m.hist b past
      have hlen := timesSeen_le_length m.hist past
      have hcount := bump_get_toNat (m.context m.hist) b c (by rw [h.counts]; omega)
      simp [hk, hcount]
    · simp [hk, Ne.symm hk]
  eSum := by
    have hbound := codeLength_le (b :: past) hroom
    rw [← h.surprise_eq b, List.length_cons] at hbound
    rw [monitorBit_eSum_toNat m b (by omega), h.surprise_eq b]

/-- A string of bits continues the stream; the newest bit is the last one shown. -/
theorem monitorBits_tracksBits (bits : List Bool) {past : List Bool} {m : Monitor} (h : m.TracksBits past)
    (hroom : past.length + bits.length < 2 ^ 64) :
    (bits.foldl monitorBit m).TracksBits (bits.reverse ++ past) := by
  induction bits generalizing past m with
  | nil => exact h
  | cons b bits ih =>
    rw [List.length_cons] at hroom
    have hstep := ih (monitorBit_tracksBits h b (by omega)) (by rw [List.length_cons]; omega)
    simpa using hstep

/-- A byte that is not refused continues the stream by its eight bits, bit 7 first (20_memory.md R62). -/
theorem monitorByte_tracks {past : List Bool} {m : Monitor} (h : m.Tracks past) (hroom : m.saturated = false)
    (data : Byte) : (monitorByte data m).Tracks ((bitsOf data).reverse ++ past) := by
  obtain ⟨hbits, h8⟩ := (tracks_iff past m).1 h
  have hlt := room_of_not_saturated hroom
  rw [hbits.totBits] at hlt
  refine (tracks_iff _ _).2 ⟨monitorBits_tracksBits (bitsOf data) hbits (by rwa [bitsOf_length]), ?_⟩
  rw [List.length_append, List.length_reverse, bitsOf_length]
  omega

/-- A command that pushed no byte to the monitor shows it no bit. -/
theorem bitsAfter_of_unchanged {past : List Bool} {i : Instr} {r : Response}
    (hi : r.status = .ok → bytesToMonitor i = []) : bitsAfter past i r = past := by
  by_cases hr : r.status = .ok
  · cases i <;> simp_all [bitsAfter, bytesToMonitor]
  · exact if_neg hr

theorem bitsAfter_of_pushed {past : List Bool} {i : Instr} {r : Response} {data : Byte}
    (hi : bytesToMonitor i = [data]) (hr : r.status = .ok) :
    bitsAfter past i r = (bitsOf data).reverse ++ past := by
  cases i <;> simp_all [bitsAfter, bytesToMonitor]

theorem MonitorStep.tracks {m m' : Monitor} {i : Instr} {r : Response} {past : List Bool}
    (st : MonitorStep m i r m') (h : m.Tracks past) : m'.Tracks (bitsAfter past i r) := by
  cases st with
  | unchanged hi hm => rw [hm, bitsAfter_of_unchanged hi]; exact h
  | pushed data hi hr hroom hm => rw [hm, bitsAfter_of_pushed hi hr]; exact monitorByte_tracks h hroom data

/-- Settles O35: each of the steps a monitor can make continues its bit stream. -/
theorem monitorFollowsItsBitStream : Obligations.MonitorFollowsItsBitStream := by
  intro past s i h
  obtain ⟨t, r, e, a⟩ := exec_answered i s
  exact ⟨t, r, e, a.outbox, a.monitor.tracks h⟩

/-! ### The statistics only grow -/

/-- No counter, sum or bit count of `m'` is below that of `m`. -/
structure Monitor.AtMost (m m' : Monitor) : Prop where
  counts : ∀ h b, ((m.context h).get b).toNat ≤ ((m'.context h).get b).toNat
  eSum : m.eSum.toNat ≤ m'.eSum.toNat
  totBits : m.totBits.toNat ≤ m'.totBits.toNat

theorem Monitor.AtMost.refl (m : Monitor) : m.AtMost m := ⟨fun _ _ => le_rfl, le_rfl, le_rfl⟩

theorem Monitor.AtMost.trans {a b c : Monitor} (hab : a.AtMost b) (hbc : b.AtMost c) : a.AtMost c :=
  ⟨fun h x => (hab.counts h x).trans (hbc.counts h x), hab.eSum.trans hbc.eSum,
    hab.totBits.trans hbc.totBits⟩

/-- One bit lowers nothing in a consistent monitor with room. -/
theorem monitorBit_atMost {m : Monitor} (hm : m.BitConsistent) (b : Bool)
    (hroom : m.totBits.toNat + 1 < 2 ^ 64) : m.AtMost (monitorBit m b) := by
  obtain ⟨hcount, -, hsum⟩ := hm.room b hroom
  refine ⟨fun h c => ?_, ?_, ?_⟩
  · rw [monitorBit_context]
    split_ifs with hh
    · rw [hh, bump_get_toNat _ b c hcount]; exact Nat.le_add_right _ _
    · exact le_rfl
  · rw [monitorBit_eSum_toNat m b hsum]; exact Nat.le_add_right _ _
  · rw [monitorBit_totBits_toNat m b hroom]; exact Nat.le_succ _

theorem monitorBits_atMost (bits : List Bool) {m : Monitor} (hm : m.BitConsistent)
    (hroom : m.totBits.toNat + bits.length < 2 ^ 64) : m.AtMost (bits.foldl monitorBit m) := by
  induction bits generalizing m with
  | nil => exact .refl m
  | cons b bits ih =>
    rw [List.length_cons] at hroom
    have hT := monitorBit_totBits_toNat m b (by omega)
    exact (monitorBit_atMost hm b (by omega)).trans (ih (monitorBit_keeps hm b (by omega)) (by omega))

theorem MonitorStep.atMost {m m' : Monitor} {i : Instr} {r : Response} (st : MonitorStep m i r m')
    (h : m.Consistent) : m.AtMost m' := by
  cases st with
  | unchanged _ hm => rw [hm]; exact .refl m
  | pushed data _ _ hroom hm =>
    have hlt := room_of_not_saturated hroom
    rw [hm]; exact monitorBits_atMost (bitsOf data) h.bits (by rwa [bitsOf_length])

/-- Settles O36: each of the steps a monitor can make lowers nothing. -/
theorem statisticsNeverDecrease : Obligations.StatisticsNeverDecrease := by
  intro i s hm
  obtain ⟨t, r, e, a⟩ := exec_answered i s
  obtain ⟨hcounts, hsum, hbits⟩ := a.monitor.atMost hm
  exact ⟨t, e, hcounts, hsum, hbits⟩

/-! ### The two halves of `ESUM` (10_state.md R46) -/

/-- A command that pushes no byte to the monitor leaves it alone. -/
theorem issue_monitor_of_no_push {i : Instr} (hi : bytesToMonitor i = []) (s : State) :
    (s.issue i).monitor = s.monitor := by
  obtain ⟨t, r, e, a⟩ := exec_answered i s
  rw [issue_eq_of_exec e]
  cases a.monitor with
  | unchanged _ hm => exact hm
  | pushed data hpush _ _ _ => simp [hi] at hpush

theorem foldl_issue_monitor_of_no_push (commands : List Instr) (s : State)
    (h : ∀ i ∈ commands, bytesToMonitor i = []) : (commands.foldl State.issue s).monitor = s.monitor := by
  induction commands generalizing s with
  | nil => rfl
  | cons i commands ih =>
    rw [List.forall_mem_cons] at h
    rw [List.foldl_cons, ih _ h.2, issue_monitor_of_no_push h.1]

theorem bytesToMonitor_eq_nil {i : Instr} (h : (∀ d, i ≠ .pushH d) ∧ ∀ d, i ≠ .pushWH d) :
    bytesToMonitor i = [] := by
  obtain ⟨hH, hWH⟩ := h
  cases i with
  | pushH d => exact absurd rfl (hH d)
  | pushWH d => exact absurd rfl (hWH d)
  | _ => rfl

/-- `CSRR` of a register's number is one `OK` with its value (43_system_ops.md R180). -/
theorem issue_csrr (reg : Csr) (s : State) :
    s.issue (.csrr (csrNumber reg)) = s.respond .ok (csrRead reg s) :=
  issue_eq_of_exec (by rw [exec_csrr, csrOfNumber_csrNumber])

theorem issue_csrr_eSumLo (s : State) :
    s.issue (.csrr 0x11) = s.respond .ok (s.monitor.eSum.extractLsb' 0 64) := issue_csrr .eSumLo s

theorem issue_csrr_eSumHi (s : State) :
    s.issue (.csrr 0x12) = s.respond .ok (s.monitor.eSum.extractLsb' 64 64) := issue_csrr .eSumHi s

/-- A pseudo-command goes on after a response `OK` (30_encoding.md R89). -/
theorem issueAll_cons_of_ok {i : Instr} {s : State} (h : (s.issue i).lastStatus = some .ok)
    (rest : List Instr) : issueAll (i :: rest) s = issueAll rest (s.issue i) := if_pos h

/-- Of one command alone the pseudo-command reports the response, whatever it is. -/
theorem issueAll_singleton (i : Instr) (s : State) : issueAll [i] s = s.issue i := ite_self _

/-- A 128-bit number is its high half and its low half. -/
theorem halves_toNat (e : BitVec 128) :
    (e.extractLsb' 64 64).toNat * 2 ^ 64 + (e.extractLsb' 0 64).toNat = e.toNat := by
  have := e.isLt
  simp only [BitVec.extractLsb'_toNat, Nat.shiftRight_eq_div_pow, Nat.pow_zero, Nat.div_one]
  omega

/-- The sum stays below `2^102`, so its high half below `2^38` (42_health_monitor_ops.md R155). -/
theorem eSumHi_lt {m : Monitor} (h : m.Consistent) : (m.eSum.extractLsb' 64 64).toNat < 2 ^ 38 := by
  have hbound := h.bits.bound
  have hbits := m.totBits.isLt
  have hhalves := halves_toNat m.eSum
  omega

/-- Settles O49: what stands between the two reads leaves the monitor alone. -/
theorem entropySumHalvesAreConsistent : Obligations.EntropySumHalvesAreConsistent := by
  refine ⟨fun s => ?_, fun s between hbetween => ?_⟩
  · have hlo : (s.issue (.csrr 0x11)).lastStatus = some .ok := by rw [issue_csrr_eSumLo]; rfl
    have hrun : Pseudo.rdESum.run s = (s.issue (.csrr 0x11)).issue (.csrr 0x12) :=
      (issueAll_cons_of_ok hlo _).trans (issueAll_singleton _ _)
    rw [hrun, issue_csrr_eSumHi, issue_csrr_eSumLo]
    exact congrArg some (halves_toNat s.monitor.eSum)
  · have hmon : (between.foldl State.issue (s.issue (.csrr 0x11))).monitor = s.monitor := by
      rw [foldl_issue_monitor_of_no_push between _ fun i hi => bytesToMonitor_eq_nil (hbetween i hi)]
      exact issue_monitor_of_no_push rfl s
    refine ⟨s.monitor.eSum.extractLsb' 0 64, s.monitor.eSum.extractLsb' 64 64, ?_, ?_,
      halves_toNat _, eSumHi_lt⟩
    · rw [issue_csrr_eSumLo, respond_lastResponse]
    · rw [issue_csrr_eSumHi, respond_lastResponse, hmon]

end Sys2Proof.Machine
end

section
/-! ### The lane view of the sponge bytes (10_state.md R23) -/

namespace Sys2Proof.Machine

/-- The number whose base-256 digits are these eight bytes, the lowest first. -/
def littleEndian (b : Fin 8 → Byte) : Nat :=
  ((List.finRange 8).map fun k => (b k).toNat * 2 ^ (8 * k.val)).sum

/-- The eight bytes of lane `A[x][y]`, indices modulo 5. -/
def laneBytes (S : SpongeBytes) (x y : Nat) (k : Fin 8) : Byte :=
  S[8 * (5 * (y % 5) + x % 5) + k.val]'(by omega)

/-- The eight terms, one by one. -/
theorem littleEndian_eq (b : Fin 8 → Byte) :
    littleEndian b = (b 0).toNat + (b 1).toNat * 2 ^ 8 + (b 2).toNat * 2 ^ 16 + (b 3).toNat * 2 ^ 24 +
      (b 4).toNat * 2 ^ 32 + (b 5).toNat * 2 ^ 40 + (b 6).toNat * 2 ^ 48 + (b 7).toNat * 2 ^ 56 := by
  rw [littleEndian, ← List.ofFn_eq_map, List.sum_ofFn, Fin.sum_univ_eight]
  simp

theorem bytes_lt (b : Fin 8 → Byte) :
    (b 0).toNat < 2 ^ 8 ∧ (b 1).toNat < 2 ^ 8 ∧ (b 2).toNat < 2 ^ 8 ∧ (b 3).toNat < 2 ^ 8 ∧
    (b 4).toNat < 2 ^ 8 ∧ (b 5).toNat < 2 ^ 8 ∧ (b 6).toNat < 2 ^ 8 ∧ (b 7).toNat < 2 ^ 8 :=
  ⟨(b 0).isLt, (b 1).isLt, (b 2).isLt, (b 3).isLt, (b 4).isLt, (b 5).isLt, (b 6).isLt, (b 7).isLt⟩

theorem littleEndian_lt (b : Fin 8 → Byte) : littleEndian b < 2 ^ 64 := by
  have hb := bytes_lt b
  rw [littleEndian_eq]
  omega

/-- Byte `k` is digit `k`. -/
theorem littleEndian_digit (b : Fin 8 → Byte) (k : Fin 8) :
    littleEndian b / 2 ^ (8 * k.val) % 2 ^ 8 = (b k).toNat := by
  have hb := bytes_lt b
  rw [littleEndian_eq]
  fin_cases k <;> simp <;> omega

/-- A lane is the number made of its own bytes. -/
theorem littleEndian_extractLsb' (v : Lane) :
    littleEndian (fun k => v.extractLsb' (8 * k.val) 8) = v.toNat := by
  have := v.isLt
  simp only [littleEndian_eq, BitVec.extractLsb'_toNat, Nat.shiftRight_eq_div_pow]
  simp
  omega

theorem laneOfBytes_toNat (S : SpongeBytes) (x y : Nat) :
    (laneOfBytes S x y).toNat = littleEndian (laneBytes S x y) := by
  show (BitVec.ofNat 64 (littleEndian (laneBytes S x y))).toNat = _
  rw [BitVec.toNat_ofNat, Nat.mod_eq_of_lt (littleEndian_lt _)]

/-- Byte `k` of a lane read off bytes is the byte it was read off. -/
theorem extractLsb'_laneOfBytes (S : SpongeBytes) (x y : Nat) (k : Fin 8) :
    (laneOfBytes S x y).extractLsb' (8 * k.val) 8 = laneBytes S x y k := by
  apply BitVec.eq_of_toNat_eq
  rw [BitVec.extractLsb'_toNat, Nat.shiftRight_eq_div_pow, laneOfBytes_toNat, littleEndian_digit]

theorem laneBytes_mod (S : SpongeBytes) (x y : Nat) : laneBytes S (x % 5) (y % 5) = laneBytes S x y := by
  funext k
  simp only [laneBytes, Nat.mod_mod]

theorem lane_lanesOfBytes (S : SpongeBytes) (x y : Nat) :
    lane (lanesOfBytes S) x y = laneOfBytes S x y := by
  apply BitVec.eq_of_toNat_eq
  rw [lanesOfBytes, lane_lanesBy, laneOfBytes_toNat, laneOfBytes_toNat, laneBytes_mod]

/-- The bytes of a lane of a byte state made from lanes are the bytes of that lane. -/
theorem laneBytes_bytesOfLanes (A : Lanes) (x y : Nat) (k : Fin 8) :
    laneBytes (bytesOfLanes A) x y k = (lane A x y).extractLsb' (8 * k.val) 8 := by
  have hk := k.isLt
  have hx : (8 * (5 * (y % 5) + x % 5) + k.val) / 8 % 5 = x % 5 := by omega
  have hy : (8 * (5 * (y % 5) + x % 5) + k.val) / 40 = y % 5 := by omega
  have hb : (8 * (5 * (y % 5) + x % 5) + k.val) % 8 = k.val := by omega
  simp only [laneBytes, bytesOfLanes, Vector.getElem_ofFn, hx, hy, hb, lane_mod]

/-- Byte `j` of a byte state is byte `j % 8` of its lane. -/
theorem laneBytes_of_index (S : SpongeBytes) {j : Nat} (hj : j < 200) :
    laneBytes S (j / 8 % 5) (j / 40) ⟨j % 8, by omega⟩ = S[j] := by
  have e : 8 * (5 * (j / 40 % 5) + j / 8 % 5 % 5) + j % 8 = j := by omega
  simp only [laneBytes, e]

theorem bytesOfLanes_lanesOfBytes (S : SpongeBytes) : bytesOfLanes (lanesOfBytes S) = S := by
  apply Vector.ext
  intro j hj
  rw [bytesOfLanes, Vector.getElem_ofFn, lane_lanesOfBytes]
  exact (extractLsb'_laneOfBytes S _ _ ⟨j % 8, by omega⟩).trans (laneBytes_of_index S hj)

theorem lanesOfBytes_bytesOfLanes {A : Lanes} (hA : A.length = 25) :
    lanesOfBytes (bytesOfLanes A) = A := by
  refine lanes_ext (lanesBy_length _) hA fun x y _ _ => BitVec.eq_of_toNat_eq ?_
  rw [lane_lanesOfBytes, laneOfBytes_toNat, funext (laneBytes_bytesOfLanes A x y),
    littleEndian_extractLsb']

/-- Settles O25: a lane and its eight bytes determine each other. -/
theorem lanesAreTheLittleEndianViewOfTheBytes : Obligations.LanesAreTheLittleEndianViewOfTheBytes := by
  refine ⟨fun S x y => ?_, bytesOfLanes_lanesOfBytes, fun A hA => lanesOfBytes_bytesOfLanes hA⟩
  rw [lane_lanesOfBytes, laneOfBytes_toNat]
  simp only [littleEndian, laneBytes, Nat.mod_eq_of_lt x.isLt, Nat.mod_eq_of_lt y.isLt]

end Sys2Proof.Machine
end

section
/-! ### Reset (10_state.md R50) -/

namespace Sys2Proof.Machine

/-- Nothing pushed, nothing delivered: the whitener after reset. -/
theorem start_tracks_reset : WhitenerHistory.start.Tracks Whitener.reset :=
  ⟨nofun, (absorbBytes_nil Sponge.zero).symm, rfl, rfl, fun _ => rfl⟩

/-- No bit shown: the monitor after reset. -/
theorem monitor_reset_tracks : Monitor.reset.Tracks [] := by
  refine ⟨rfl, rfl, rfl, fun h b => ?_, rfl⟩
  rw [monitor_reset_context]
  cases b <;> rfl

/-- Settles O46, from the reset units. -/
theorem invariantsHoldAtReset : Obligations.InvariantsHoldAtReset :=
  ⟨safe_of_reset_units rfl rfl, start_tracks_reset, monitor_reset_tracks⟩

/-- Settles O53, by reading the reset state element by element. -/
theorem resetValuesAreTheListed : Obligations.ResetValuesAreTheListed := by
  refine ⟨fun j hj => Vector.getElem_replicate hj, rfl, rfl, rfl, fun h b => ?_,
    rfl, rfl, rfl, rfl, rfl, rfl⟩
  rw [reset_monitor, monitor_reset_context]
  cases b <;> rfl

end Sys2Proof.Machine
end

section
/-! ### What a command reads and what it leaves alone (20_memory.md R75) -/

namespace Sys2Proof.Machine

/-- A whitener command is a function of the whitener: the rest of the machine is neither read nor changed. -/
theorem exec_whitener_command {i : Instr} (hi : i = .rdpool ∨ i = .discard ∨ ∃ d, i = .pushW d)
    (w : Whitener) :
    ∃ w' r, ∀ (m : Monitor) (c : ConfigRegs) (inbox : List PortEvent) (outbox : List Response),
      exec i ⟨w, m, c, inbox, outbox⟩ = .next ⟨w', m, c, inbox, r :: outbox⟩ := by
  obtain rfl | rfl | ⟨data, rfl⟩ := hi
  · by_cases he : w.poolRd.val = 2048
    · exact ⟨w, ⟨.errPoolEmpty, 0⟩, fun _ _ _ _ => exec_rdpool_empty _ he⟩
    · have := w.poolRd.isLt
      refine ⟨{ w with poolRd := ⟨w.poolRd.val + 1, by omega⟩ },
        ⟨.ok, (w.pool.read w.poolRd.val).setWidth 64⟩, fun m c inbox outbox => ?_⟩
      obtain ⟨p, hp, e⟩ := exec_rdpool_delivers ⟨w, m, c, inbox, outbox⟩ he
      rw [e, show p = ⟨w.poolRd.val + 1, by omega⟩ from Fin.ext hp]
      rfl
  · exact ⟨{ w with chCnt := 0 }, ⟨.ok, 0⟩, fun _ _ _ _ => exec_discard _⟩
  · by_cases hb : w.poolBusy = true
    · exact ⟨w, ⟨.errPoolBusy, 0⟩, fun _ _ _ _ => (exec_pushW data _).trans (if_pos hb)⟩
    · exact ⟨pushByte data w, ⟨.ok, 0⟩, fun _ _ _ _ => (exec_pushW data _).trans (if_neg hb)⟩

/-- A monitor command is a function of the monitor and the configuration, which it does not change: the rest
of the machine is neither read nor changed. -/
theorem exec_monitor_command {i : Instr} (hi : i = .healthy ∨ i = .entropy ∨ ∃ d, i = .pushH d)
    (m : Monitor) (c : ConfigRegs) :
    ∃ m' r, ∀ (w : Whitener) (inbox : List PortEvent) (outbox : List Response),
      exec i ⟨w, m, c, inbox, outbox⟩ = .next ⟨w, m', c, inbox, r :: outbox⟩ := by
  obtain rfl | rfl | ⟨data, rfl⟩ := hi
  · exact ⟨m, ⟨.ok, if verdict m.eSum.toNat m.totBits.toNat c.target.toNat c.tolerance.toNat c.window.toNat
      then 1 else 0⟩, fun _ _ _ => exec_healthy _⟩
  · exact ⟨m, ⟨.ok, BitVec.ofNat 64 m.estimate⟩, fun _ _ _ => exec_entropy _⟩
  · by_cases hs : m.saturated = true
    · exact ⟨m, ⟨.errCntSat, 0⟩, fun _ _ _ => (exec_pushH data _).trans (if_pos hs)⟩
    · exact ⟨monitorByte data m, ⟨.ok, 0⟩, fun _ _ _ => (exec_pushH data _).trans (if_neg hs)⟩

/-- `PUSH.WH` where either unit would refuse. -/
theorem exec_pushWH_refused (data : Byte) {s : State}
    (h : ¬ (s.whitener.poolBusy = false ∧ s.monitor.saturated = false)) :
    ∃ code, code ≠ .ok ∧ exec (.pushWH data) s = .next (s.respond code 0) := by
  rw [exec_pushWH]
  split_ifs with hb hs
  · exact ⟨.errPoolBusy, nofun, rfl⟩
  · exact ⟨.errCntSat, nofun, rfl⟩
  · exact absurd ⟨eq_false_of_ne_true hb, eq_false_of_ne_true hs⟩ h

/-- `PUSH.WH` where neither unit would refuse. -/
theorem exec_pushWH_accepted (data : Byte) {s : State}
    (hb : s.whitener.poolBusy = false) (hs : s.monitor.saturated = false) :
    exec (.pushWH data) s = .next (State.respond
      { s with monitor := monitorByte data s.monitor, whitener := pushByte data s.whitener } .ok 0) := by
  rw [exec_pushWH, hb, hs]
  rfl

/-- The guards of the two units, as the numbers they are taken from (40_whitener_ops.md R101,
42_health_monitor_ops.md R151). -/
theorem guards_false_iff (s : State) : s.whitener.poolBusy = false ∧ s.monitor.saturated = false ↔
    s.whitener.poolRd.val = 2048 ∧ s.monitor.totBits.toNat ≤ 2 ^ 64 - 9 := by
  rw [poolBusy_eq_false_iff, ← Bool.not_eq_true, saturated_iff, not_lt]

/-- Settles O50: the commands of one unit are functions of that unit, and `PUSH.WH` is refused by either
guard as a whole. -/
theorem unitsDoNotInteract : Obligations.UnitsDoNotInteract := by
  refine ⟨fun i hi s m c => ?_, fun i hi s w => ?_, fun d s => ?_⟩
  · obtain ⟨w', r, e⟩ := exec_whitener_command hi s.whitener
    exact ⟨_, e s.monitor s.config s.inbox s.outbox, rfl, rfl, e m c s.inbox s.outbox⟩
  · obtain ⟨m', r, e⟩ := exec_monitor_command hi s.monitor s.config
    exact ⟨_, e s.whitener s.inbox s.outbox, rfl, rfl, e w s.inbox s.outbox⟩
  · rw [← guards_false_iff]
    by_cases h : s.whitener.poolBusy = false ∧ s.monitor.saturated = false
    · obtain ⟨hb, hs⟩ := h
      exact ⟨_, exec_pushWH_accepted d hb hs, iff_of_true rfl ⟨hb, hs⟩, .inr ⟨rfl, rfl, rfl, rfl⟩⟩
    · obtain ⟨code, hcode, e⟩ := exec_pushWH_refused d h
      have hstatus : (s.respond code 0).lastStatus ≠ some .ok := fun h' => hcode (Option.some.inj h')
      exact ⟨_, e, iff_of_false hstatus h, .inl ⟨⟨rfl, rfl, rfl⟩, hstatus⟩⟩

end Sys2Proof.Machine
end

section
/-! ### Queries (20_memory.md R69) -/

namespace Sys2Proof.Machine

theorem State.SameUnits.sameRegisters {s t : State} (h : s.SameUnits t) : s.SameRegisters t := by
  obtain ⟨hw, hm, hc⟩ := h
  exact ⟨by rw [hw], by rw [hw], by rw [hm], by rw [hm], by rw [hm], hc⟩

theorem State.SameUnits.refl (s : State) : s.SameUnits s := ⟨rfl, rfl, rfl⟩

/-- Giving a response is no change of a state element (00_scope.md R14). -/
theorem sameUnits_respond (s : State) (status : Status) (rdata : Word64) :
    s.SameUnits (s.respond status rdata) := ⟨rfl, rfl, rfl⟩

/-- A query does nothing but respond, and the units alone fix what it responds. -/
theorem exec_query {i : Instr} (hi : i = .healthy ∨ i = .entropy ∨ ∃ csr, i = .csrr csr) (s : State) :
    ∃ status rdata, ∀ t, s.SameUnits t → exec i t = .next (t.respond status rdata) := by
  obtain rfl | rfl | ⟨csr, rfl⟩ := hi
  · exact ⟨_, _, fun t h => by rw [exec_healthy, h.sameRegisters.isHealthy]⟩
  · exact ⟨_, _, fun t h => by rw [exec_entropy, h.sameRegisters.estimate]⟩
  · cases hr : csrOfNumber csr with
    | some reg => exact ⟨.ok, csrRead reg s, fun t h => by rw [exec_csrr, hr, ← h.sameRegisters.csrRead reg]⟩
    | none => exact ⟨_, _, fun t _ => by rw [exec_csrr, hr]⟩

/-- Settles O52: a query does nothing but respond, so that it finds the same units when it is repeated. -/
theorem queriesAreIdempotent : Obligations.QueriesAreIdempotent := by
  refine ⟨fun i s hi => ?_, fun s he => ?_⟩
  · obtain ⟨status, rdata, e⟩ := exec_query hi s
    have hsame := sameUnits_respond s status rdata
    exact ⟨_, _, _, e s (.refl s), e _ hsame, hsame, sameUnits_respond _ status rdata, rfl, rfl⟩
  · obtain ⟨p, hp, e⟩ := exec_rdpool_delivers s he
    exact ⟨_, e, hp⟩

end Sys2Proof.Machine
end

section
/-! ### The decoder on encoded commands (30_encoding.md R85, R88) -/

namespace Sys2Proof.Machine

/-- The row of `CSRW` (30_encoding.md R85): no earlier clause of the decoder takes a word of opcode 7. -/
theorem decode_csrw_word {w : CmdWord} (hop : opField w = 7) (hsel : selField w = 0) (wdata : Word64) :
    decode w wdata = some (.csrw (immField w) wdata) := by
  have other {z : CmdWord} (hz : opField z ≠ 7) : w ≠ z := fun e => hz (e ▸ hop)
  rw [decode, if_neg (by simp [hop]), if_neg (by simp [hop]), if_neg (by simp [hop]),
    if_neg (other (by decide)), if_neg (other (by decide)), if_neg (other (by decide)),
    if_neg (other (by decide)), if_neg (by simp [hop]), if_pos ⟨hop, hsel⟩]

/-- The fields of the word that `CSRW` is encoded as (30_encoding.md R88). -/
theorem csrw_word_fields : ∀ csr : Byte, opField (0x7000 ||| csr.setWidth 16) = 7 ∧
    selField (0x7000 ||| csr.setWidth 16) = 0 ∧ immField (0x7000 ||| csr.setWidth 16) = csr := by decide

/-- The decoder gives back every encoded command, with every operand (30_encoding.md R85). -/
theorem decode_encode (i : Instr) : decode (encode i).cmd (encode i).wdata = some i := by
  cases i with
  | pushW data => revert data; decide
  | pushH data => revert data; decide
  | pushWH data => revert data; decide
  | rdpool => decide
  | discard => decide
  | healthy => decide
  | entropy => decide
  | csrr csr => revert csr; decide
  | csrw csr value =>
    obtain ⟨hop, hsel, himm⟩ := csrw_word_fields csr
    exact (decode_csrw_word hop hsel value).trans (by rw [himm])

end Sys2Proof.Machine
end

section
/-! ### Commands in the order issued (20_memory.md R66, R71) -/

namespace Sys2Proof.Machine

/-- Every command has a next state, so issuing it is executing it (60_exceptions.md R205). -/
theorem exec_eq_issue (i : Instr) (s : State) : exec i s = .next (s.issue i) := by
  obtain ⟨t, r, e, -⟩ := exec_answered i s
  rw [issue_eq_of_exec e, e]

/-- A command is a function of the units and the configuration: what the host has still to present is neither
read nor changed, and the response is added to those given before. -/
theorem exec_from_units (i : Instr) (w : Whitener) (m : Monitor) (c : ConfigRegs) :
    ∃ w' m' c' r, ∀ (inbox : List PortEvent) (outbox : List Response),
      exec i ⟨w, m, c, inbox, outbox⟩ = .next ⟨w', m', c', inbox, r :: outbox⟩ := by
  cases i with
  | pushW data =>
    obtain ⟨w', r, e⟩ := exec_whitener_command (.inr (.inr ⟨data, rfl⟩)) w
    exact ⟨w', m, c, r, e m c⟩
  | rdpool =>
    obtain ⟨w', r, e⟩ := exec_whitener_command (.inl rfl) w
    exact ⟨w', m, c, r, e m c⟩
  | discard =>
    obtain ⟨w', r, e⟩ := exec_whitener_command (.inr (.inl rfl)) w
    exact ⟨w', m, c, r, e m c⟩
  | pushH data =>
    obtain ⟨m', r, e⟩ := exec_monitor_command (.inr (.inr ⟨data, rfl⟩)) m c
    exact ⟨w, m', c, r, e w⟩
  | healthy =>
    obtain ⟨m', r, e⟩ := exec_monitor_command (.inl rfl) m c
    exact ⟨w, m', c, r, e w⟩
  | entropy =>
    obtain ⟨m', r, e⟩ := exec_monitor_command (.inr (.inl rfl)) m c
    exact ⟨w, m', c, r, e w⟩
  | pushWH data =>
    by_cases hb : w.poolBusy = true
    · exact ⟨w, m, c, ⟨.errPoolBusy, 0⟩, fun _ _ => (exec_pushWH data _).trans (if_pos hb)⟩
    by_cases hs : m.saturated = true
    · exact ⟨w, m, c, ⟨.errCntSat, 0⟩, fun _ _ => (exec_pushWH data _).trans ((if_neg hb).trans (if_pos hs))⟩
    · exact ⟨pushByte data w, monitorByte data m, c, ⟨.ok, 0⟩, fun _ _ =>
        (exec_pushWH data _).trans ((if_neg hb).trans (if_neg hs))⟩
  | csrr csr =>
    cases hr : csrOfNumber csr with
    | some reg => exact ⟨w, m, c, ⟨.ok, csrRead reg ⟨w, m, c, [], []⟩⟩, fun _ _ => by
        rw [exec_csrr, hr]; cases reg <;> rfl⟩
    | none => exact ⟨w, m, c, ⟨.errCsr, 0⟩, fun _ _ => by rw [exec_csrr, hr]; rfl⟩
  | csrw csr value =>
    cases hr : (csrOfNumber csr).bind fun reg => csrWrite reg value c with
    | some c' => exact ⟨w, m, c', ⟨.ok, 0⟩, fun _ _ => by rw [exec_csrw, hr]; rfl⟩
    | none => exact ⟨w, m, c, ⟨.errCsr, 0⟩, fun _ _ => by rw [exec_csrw, hr]; rfl⟩

/-- What the host has still to present plays no part in a command. -/
theorem issue_with_inbox (s : State) (i : Instr) (inbox : List PortEvent) :
    State.issue { s with inbox := inbox } i = { s.issue i with inbox := inbox } := by
  obtain ⟨w', m', c', r, e⟩ := exec_from_units i s.whitener s.monitor s.config
  rw [issue_eq_of_exec (e inbox s.outbox), issue_eq_of_exec (e s.inbox s.outbox)]

/-- The step on an encoded command executes that command, the rest staying presented. -/
theorem step_encoded {s : State} {i : Instr} {rest : List PortEvent}
    (h : s.inbox = .command (encode i) :: rest) : step s = .next { s.issue i with inbox := rest } := by
  rw [step_command s _ rest i h (decode_encode i), exec_eq_issue, issue_with_inbox]

/-- Settles O8, by induction on the commands: a step is one command issued, and leaves the others presented. -/
theorem commandsTakeEffectInOrder : Obligations.CommandsTakeEffectInOrder := by
  intro commands
  induction commands with
  | nil =>
    rintro ⟨w, m, c, _, outbox⟩ rfl
    rfl
  | cons i commands ih =>
    intro s hin
    calc Host.Core.run core (commands.length + 1) s
      _ = .next (commands.foldl State.issue { s.issue i with inbox := [] }) :=
        (run_succ _ (step_encoded hin)).trans (ih _ rfl)
      _ = .next (commands.foldl State.issue (State.issue { s with inbox := [] } i)) := by
        rw [issue_with_inbox s i []]

end Sys2Proof.Machine
end

section
/-! ### The decoder inverted (30_encoding.md R84 to R88) -/

namespace Sys2Proof

/-- The command with this `WDATA` in place of its own: only `CSRW` carries one (30_encoding.md R80). -/
def Instr.withWdata (wdata : Word64) : Instr → Instr
  | .csrw csr _ => .csrw csr wdata
  | i => i

/-- `WDATA` decides nothing but the value that `CSRW` carries (30_encoding.md R80). -/
theorem decode_withWdata (w : CmdWord) (a b : Word64) :
    decode w b = (decode w a).map (Instr.withWdata b) := by
  simp only [decode]
  split_ifs <;> rfl

end Sys2Proof

namespace Sys2Proof.Machine

/-- A word is its selector byte followed by its data byte, in the form in which R88 writes it. -/
theorem word_eq_of_fields {w : CmdWord} {op sel : BitVec 4} (h : opField w = op ∧ selField w = sel) :
    BitVec.ofNat 16 (256 * (16 * op.toNat + sel.toNat)) ||| (immField w).setWidth 16 = w := by
  obtain ⟨rfl, rfl⟩ := h
  have hop := (opField w).isLt
  have hsel := (selField w).isLt
  apply BitVec.eq_of_toNat_eq
  rw [fields_of_or _ (by omega), word_of_fields w]
  omega

/-- A word is the encoding of what it decodes to (30_encoding.md R85). -/
theorem encode_cmd_of_decode {w : CmdWord} {wdata : Word64} {i : Instr} (h : decode w wdata = some i) :
    (encode i).cmd = w := by
  simp only [decode] at h
  split_ifs at h with hW hH hWH hrd hdi hhe hen hcr hcw <;> obtain rfl := Option.some.inj h
  · exact word_eq_of_fields hW
  · exact word_eq_of_fields hH
  · exact word_eq_of_fields hWH
  · exact hrd.symm
  · exact hdi.symm
  · exact hhe.symm
  · exact hen.symm
  · exact word_eq_of_fields hcr
  · exact word_eq_of_fields hcw

/-- A word decodes to a command exactly if it is that command's word and `WDATA` is its value, where it has
one. -/
theorem decode_eq_some_iff {w : CmdWord} {wdata : Word64} {i : Instr} :
    decode w wdata = some i ↔ (encode i).cmd = w ∧ i.withWdata wdata = i := by
  constructor
  · intro h
    have hsame := decode_withWdata w wdata wdata
    rw [h] at hsame
    exact ⟨encode_cmd_of_decode h, (Option.some.inj hsame).symm⟩
  · rintro ⟨rfl, hi⟩
    rw [decode_withWdata _ (encode i).wdata, decode_encode, Option.map_some, hi]

/-- Settles O1, by `decode_encode` and the decoder inverted. -/
theorem decodeAndEncodeAgree : Obligations.DecodeAndEncodeAgree := by
  refine ⟨decode_encode, fun _ _ _ => encode_cmd_of_decode, fun w wdata csr value h => ?_⟩
  obtain ⟨-, hvalue⟩ := decode_eq_some_iff.1 h
  exact congrArg (fun i => (encode i).wdata) hvalue.symm

/-- Settles O4: each vector is the word its command is encoded as. -/
theorem writtenOutWordsDecode : Obligations.WrittenOutWordsDecode :=
  ⟨decode_encode (.pushW 0x5A), decode_encode (.pushH 0xA5), decode_encode (.pushWH 0x00),
    decode_encode .rdpool, decode_encode .discard, decode_encode .healthy, decode_encode .entropy,
    decode_encode (.csrr 0x21), decode_encode (.csrw 0x02 0x10)⟩

end Sys2Proof.Machine
end

section
/-! ### The rows of the opcode map (30_encoding.md R84) -/

namespace Sys2Proof.Machine

/-- A word in a row with a data byte is the row's match value with the word's low byte. -/
theorem word_of_byte_row {w row : CmdWord} (h : w &&& 0xFF00 = row) :
    row ||| (w.setWidth 8).setWidth 16 = w := by
  have hlow : (w.setWidth 8).setWidth 16 = w &&& 0x00FF := by
    apply BitVec.eq_of_toNat_eq
    have hmask := Nat.and_two_pow_sub_one_eq_mod w.toNat 8
    simp at hmask ⊢
    omega
  calc row ||| (w.setWidth 8).setWidth 16
    _ = w &&& (0xFF00 ||| 0x00FF) := by rw [← h, hlow, BitVec.and_or_distrib_left]
    _ = w := BitVec.and_allOnes

/-- A word in a row without operands is the row's match value. -/
theorem word_of_full_row {w row : CmdWord} (h : w &&& 0xFFFF = row) : row = w :=
  h.symm.trans BitVec.and_allOnes

/-- The word of every command lies in the command's own row: the per-command laws together. -/
theorem encode_cmd_in_row : ∀ i : Instr, Laws.Encoded.Statement i
  | .pushW data => Laws.Encoded.pushW data
  | .pushH data => Laws.Encoded.pushH data
  | .pushWH data => Laws.Encoded.pushWH data
  | .rdpool => Laws.Encoded.rdpool
  | .discard => Laws.Encoded.discard
  | .healthy => Laws.Encoded.healthy
  | .entropy => Laws.Encoded.entropy
  | .csrr csr => Laws.Encoded.csrr csr
  | .csrw csr value => Laws.Encoded.csrw csr value

/-- The two kinds of rows, and their match values. -/
theorem row_cases (i : Instr) :
    (∃ hi ∈ ([0x1100, 0x1200, 0x1300, 0x6000, 0x7000] : List CmdWord), Laws.Encoded.row i = (0xFF00, hi)) ∨
    (∃ word ∈ ([0x2000, 0x3000, 0x4000, 0x5000] : List CmdWord), Laws.Encoded.row i = (0xFFFF, word)) := by
  cases i <;> simp [Laws.Encoded.row]

/-- Settles O2: a word in a row is the encoding of the row's command, and every encoding is in a row. -/
theorem decodeFollowsTheOpcodeMap : Obligations.DecodeFollowsTheOpcodeMap := by
  intro w wdata
  refine ⟨fun h => ?pushW, fun h => ?pushH, fun h => ?pushWH, fun h => ?rdpool, fun h => ?discard,
    fun h => ?healthy, fun h => ?entropy, fun h => ?csrr, fun h => ?csrw, fun h => ?listed⟩
  case pushW | pushH | pushWH | csrr | csrw => exact decode_eq_some_iff.2 ⟨word_of_byte_row h, rfl⟩
  case rdpool | discard | healthy | entropy => exact decode_eq_some_iff.2 ⟨word_of_full_row h, rfl⟩
  case listed =>
    obtain ⟨i, hdecode⟩ := Option.ne_none_iff_exists'.1 h
    obtain ⟨rfl, -⟩ := decode_eq_some_iff.1 hdecode
    obtain ⟨-, hrow⟩ := encode_cmd_in_row i
    obtain ⟨hi, hmem, e⟩ | ⟨word, hmem, e⟩ := row_cases i <;> rw [e] at hrow
    · exact .inl (hrow ▸ hmem)
    · exact .inr (word_of_full_row hrow ▸ hmem)

end Sys2Proof.Machine
end

section
/-! ### Illegal words (30_encoding.md R86) -/

namespace Sys2Proof.Machine

theorem opField_eq_iff {w : CmdWord} {op : BitVec 4} : opField w = op ↔ w.toNat / 4096 = op.toNat := by
  rw [← opField_toNat, BitVec.toNat_inj]

theorem selField_eq_iff {w : CmdWord} {sel : BitVec 4} :
    selField w = sel ↔ w.toNat / 256 % 16 = sel.toNat := by
  rw [← selField_toNat, BitVec.toNat_inj]

/-- The illegal words by their fields as numbers: what is left when every clause of R85 fails. -/
theorem decode_eq_none_iff (w : CmdWord) (wdata : Word64) : decode w wdata = none ↔
    w.toNat / 4096 = 0 ∨ 8 ≤ w.toNat / 4096 ∨
    (w.toNat / 4096 = 1 ∧ (w.toNat / 256 % 16 = 0 ∨ 4 ≤ w.toNat / 256 % 16)) ∨
    (2 ≤ w.toNat / 4096 ∧ w.toNat / 4096 ≤ 5 ∧ (w.toNat / 256 % 16 ≠ 0 ∨ w.toNat % 256 ≠ 0)) ∨
    (6 ≤ w.toNat / 4096 ∧ w.toNat / 4096 ≤ 7 ∧ w.toNat / 256 % 16 ≠ 0) := by
  have hclauses : decode w wdata = none ↔
      ¬ (opField w = 1 ∧ selField w = 1) ∧ ¬ (opField w = 1 ∧ selField w = 2) ∧
      ¬ (opField w = 1 ∧ selField w = 3) ∧ w ≠ 0x2000 ∧ w ≠ 0x3000 ∧ w ≠ 0x4000 ∧ w ≠ 0x5000 ∧
      ¬ (opField w = 6 ∧ selField w = 0) ∧ ¬ (opField w = 7 ∧ selField w = 0) := by
    simp only [decode, ite_eq_iff, reduceCtorEq, and_false, and_true, false_or, ne_eq]
  rw [hclauses]
  simp only [opField_eq_iff, selField_eq_iff]
  simp only [ne_eq, ← BitVec.toNat_inj, BitVec.reduceToNat]
  omega

/-- A register number that names no register is refused by `CSRR` and by `CSRW` (43_system_ops.md R180, R181). -/
theorem exec_csr_unnamed {csr : Byte} (h : csrOfNumber csr = none) (value : Word64) (s : State) :
    exec (.csrr csr) s = .next (s.respond .errCsr 0) ∧
    exec (.csrw csr value) s = .next (s.respond .errCsr 0) := by
  rw [exec_csrr, exec_csrw, h]
  exact ⟨rfl, rfl⟩

/-- Settles O3: the list is what the decoder's clauses leave over; the step answers it; and a CSR word is the
encoding of its command, whatever the number. -/
theorem illegalWordsAreExactlyTheListed : Obligations.IllegalWordsAreExactlyTheListed := by
  refine ⟨decode_eq_none_iff, step_illegal, fun wdata => ⟨?zeros, ?ones⟩, fun csr wdata s hcsr => ?csr⟩
  case zeros => exact (decode_eq_none_iff _ _).2 (.inl rfl)
  case ones => exact (decode_eq_none_iff _ _).2 (.inr (.inl (by decide)))
  case csr =>
    exact ⟨decode_eq_some_iff.2 ⟨rfl, rfl⟩, decode_eq_some_iff.2 ⟨rfl, rfl⟩,
      exec_csr_unnamed hcsr wdata s⟩

end Sys2Proof.Machine
end

section
/-! ### The data of a response (30_encoding.md R82) -/

namespace Sys2Proof.Machine

/-- A command that is not asked for data answers 0, whether it is refused or not. -/
theorem exec_data_zero {i : Instr} (s : State)
    (hi : i ≠ .rdpool ∧ i ≠ .healthy ∧ i ≠ .entropy ∧ ∀ csr, i ≠ .csrr csr) :
    ∃ t r, exec i s = .next t ∧ t.outbox = r :: s.outbox ∧ r.rdata = 0 := by
  obtain ⟨hrdpool, hhealthy, hentropy, hcsrr⟩ := hi
  cases i with
  | pushW data => rw [exec_pushW]; split_ifs <;> exact ⟨_, _, rfl, rfl, rfl⟩
  | pushH data => rw [exec_pushH]; split_ifs <;> exact ⟨_, _, rfl, rfl, rfl⟩
  | pushWH data => rw [exec_pushWH]; split_ifs <;> exact ⟨_, _, rfl, rfl, rfl⟩
  | discard => exact ⟨_, _, exec_discard s, rfl, rfl⟩
  | csrw csr value =>
    rw [exec_csrw]
    cases (csrOfNumber csr).bind fun reg => csrWrite reg value s.config <;> exact ⟨_, _, rfl, rfl, rfl⟩
  | rdpool => exact absurd rfl hrdpool
  | healthy => exact absurd rfl hhealthy
  | entropy => exact absurd rfl hentropy
  | csrr csr => exact absurd rfl (hcsrr csr)

/-- Settles O11: five commands answer 0 always, and each of the other four its own data or a refusal. -/
theorem responseDataFollowsTheFormat : Obligations.ResponseDataFollowsTheFormat := by
  intro i s
  have hnodata := exec_data_zero (i := i) s
  cases i
  case pushW | pushH | pushWH | discard | csrw =>
    obtain ⟨t, r, e, hout, hzero⟩ := hnodata ⟨nofun, nofun, nofun, nofun⟩
    exact ⟨t, r, e, hout, fun _ => hzero, fun _ => hzero⟩
  case rdpool =>
    by_cases he : s.whitener.poolRd.val = 2048
    · exact ⟨_, _, exec_rdpool_empty s he, rfl, fun _ => rfl, nofun⟩
    · obtain ⟨p, -, e⟩ := exec_rdpool_delivers s he
      exact ⟨_, _, e, rfl, fun h => absurd rfl h, fun _ => BitVec.toNat_setWidth_of_le (by decide)⟩
  case healthy =>
    exact ⟨_, _, exec_healthy s, rfl, fun h => absurd rfl h, fun _ => apply_ite BitVec.toNat _ _ _⟩
  case entropy => exact ⟨_, _, exec_entropy s, rfl, fun h => absurd rfl h, fun _ => rfl⟩
  case csrr csr =>
    rw [exec_csrr]
    cases hr : csrOfNumber csr with
    | some reg => exact ⟨_, _, rfl, rfl, fun h => absurd rfl h, fun _ => ⟨reg, hr, rfl⟩⟩
    | none => exact ⟨_, _, rfl, rfl, fun _ => rfl, nofun⟩

end Sys2Proof.Machine
end

section
/-! ### A chunk pushed (30_encoding.md R89, 40_whitener_ops.md R102, R104) -/

namespace Sys2Proof.Machine

/-- Bytes pushed one after the other, without the guard of the pool. -/
def pushBytes (w : Whitener) (bytes : List Byte) : Whitener := bytes.foldl (fun v b => pushByte b v) w

@[simp] theorem pushBytes_nil (w : Whitener) : pushBytes w [] = w := rfl

@[simp] theorem pushBytes_cons (w : Whitener) (b : Byte) (bytes : List Byte) :
    pushBytes w (b :: bytes) = pushBytes (pushByte b w) bytes := rfl

/-- Pushing exactly the bytes that the chunk still lacks is one round: the sponge absorbs the gathered bytes
and the pushed ones, and the pool holds the whole squeeze. -/
theorem pushBytes_completes_chunk {bytes : List Byte} {w : Whitener} (hwf : w.chunk.wf = true)
    (hlen : w.chCnt.val + bytes.length = 256) :
    (pushBytes w bytes).sponge = absorbBytes w.sponge (w.chunk.firstBytes w.chCnt.val ++ bytes) ∧
    (pushBytes w bytes).undelivered = squeeze2048 (pushBytes w bytes).sponge ∧
    (pushBytes w bytes).chCnt = 0 ∧ (pushBytes w bytes).poolRd = 0 := by
  induction bytes generalizing w with
  | nil => exact absurd hlen (Nat.ne_of_lt w.chCnt.isLt)
  | cons b bytes ih =>
    rw [List.length_cons] at hlen
    rw [pushBytes_cons]
    rcases pushByte_cases b w with ⟨-, hsp, -, -, hc, hk⟩ | ⟨hfull, hsp, -, hr, hc, -, hu⟩
    · have h := ih (w := pushByte b w) (hk ▸ wf_write hwf _ b) (by omega)
      rwa [hsp, hc, hk, firstBytes_write hwf, List.append_assoc] at h
    · obtain rfl : bytes = [] := List.eq_nil_of_length_eq_zero (by omega)
      exact ⟨by rw [pushBytes_nil, hsp, chunk_of_last_push hwf hfull], hu, hc, hr⟩

/-- `PUSH.W` commands into an empty pool, no more than complete the chunk, are all accepted, and the monitor
and the configuration take no part in them. -/
theorem issueAll_pushW {bytes : List Byte} {s : State} (hempty : s.whitener.poolRd.val = 2048)
    (hroom : s.whitener.chCnt.val + bytes.length ≤ 256) :
    issueAll (bytes.map .pushW) s =
      { s with whitener := pushBytes s.whitener bytes
               outbox := List.replicate bytes.length { status := .ok, rdata := 0 } ++ s.outbox } := by
  induction bytes generalizing s with
  | nil => rfl
  | cons b bytes ih =>
    rw [List.length_cons] at hroom
    have hissue : s.issue (.pushW b) = State.respond { s with whitener := pushByte b s.whitener } .ok 0 :=
      issue_eq_of_exec ((exec_pushW b s).trans (if_neg (by simp [poolBusy_iff, hempty])))
    have hfirst : issueAll ((b :: bytes).map .pushW) s =
        issueAll (bytes.map .pushW) (State.respond { s with whitener := pushByte b s.whitener } .ok 0) := by
      rw [List.map_cons, issueAll, hissue]
      exact if_pos rfl
    rw [hfirst, pushBytes_cons, List.length_cons, List.replicate_succ', List.append_assoc]
    rcases pushByte_cases b s.whitener with ⟨-, -, -, hr, hc, -⟩ | ⟨hfull, -⟩
    · exact ih (by simpa [hr] using hempty) (by simpa [hc] using by omega)
    · obtain rfl : bytes = [] := List.eq_nil_of_length_eq_zero (by omega)
      rfl

/-- Settles O56: all 256 pushes are accepted, and together they complete one chunk. -/
theorem chunkPushRunsOneRound : Obligations.ChunkPushRunsOneRound := by
  intro bytes s hempty hnone hstores
  obtain ⟨hwf, -⟩ := hstores
  have hlen : s.whitener.chCnt.val + bytes.toList.length = 256 := by rw [hnone, Vector.length_toList]
  obtain ⟨hsponge, hundelivered, hchCnt, hpoolRd⟩ := pushBytes_completes_chunk hwf hlen
  have hrun : (Pseudo.chunkW bytes).run s = _ := issueAll_pushW hempty hlen.le
  rw [hrun]
  rw [hnone, firstBytes_zero, List.nil_append] at hsponge
  refine ⟨?_, hsponge, hundelivered, congrArg Fin.val hchCnt, congrArg Fin.val hpoolRd, rfl, rfl⟩
  rw [Vector.length_toList]
  rfl

end Sys2Proof.Machine
end

section
/-! ### The whitener's commands (40_whitener_ops.md R101 to R108) -/

namespace Sys2Proof.Machine

/-- While the pool holds undelivered bytes, both whitener pushes are refused alike, and the count guard is not
looked at (40_whitener_ops.md R101). -/
theorem exec_whitener_push_busy (data : Byte) {s : State} (h : s.whitener.poolRd.val ≠ 2048) :
    exec (.pushW data) s = .next (s.respond .errPoolBusy 0) ∧
    exec (.pushWH data) s = .next (s.respond .errPoolBusy 0) := by
  have hb := (poolBusy_iff _).2 h
  exact ⟨(exec_pushW data s).trans (if_pos hb), (exec_pushWH data s).trans (if_pos hb)⟩

/-- `PUSH.W` where the pool is empty. -/
theorem exec_pushW_accepted (data : Byte) {s : State} (h : s.whitener.poolRd.val = 2048) :
    exec (.pushW data) s =
      .next (State.respond { s with whitener := pushByte data s.whitener } .ok 0) := by
  rw [exec_pushW, (poolBusy_eq_false_iff _).2 h]
  rfl

/-- `PUSH.H` where the count has room. -/
theorem exec_pushH_accepted (data : Byte) {s : State} (h : s.monitor.saturated = false) :
    exec (.pushH data) s =
      .next (State.respond { s with monitor := monitorByte data s.monitor } .ok 0) := by
  rw [exec_pushH, h]
  rfl

/-- Settles O14, by the guard of the pool. -/
theorem whitenerPushRefusedWhilePoolHolds : Obligations.WhitenerPushRefusedWhilePoolHolds :=
  fun data _ h => exec_whitener_push_busy data h

/-- Settles O15: the accepted push gathers its byte, short of the 256th. -/
theorem pushWGathersOneByte : Obligations.PushWGathersOneByte := by
  intro data s hempty hshort hstores
  obtain ⟨hwf, -⟩ := hstores
  refine ⟨_, exec_pushW_accepted data hempty, ?_⟩
  obtain ⟨-, hsponge, hpool, hpoolRd, hchCnt, hchunk⟩ | ⟨hfull, -⟩ := pushByte_cases data s.whitener
  · rw [respond_whitener, hchunk, hpool]
    exact ⟨hchCnt, read_write_same hwf _ data, fun a ha => read_write_other hwf ha data, fun _ => rfl,
      hsponge, hpoolRd, rfl, rfl, rfl, rfl⟩
  · omega

/-- Settles O16: the accepted push is the 256th, so that it runs the round. -/
theorem pushWOfTheLastByteRunsTheRound : Obligations.PushWOfTheLastByteRunsTheRound := by
  intro data s hempty hlast hstores
  obtain ⟨hwf, -⟩ := hstores
  refine ⟨_, exec_pushW_accepted data hempty, ?_⟩
  obtain ⟨hshort, -⟩ | ⟨-, hsponge, hpool, hpoolRd, hchCnt, hchunk, -⟩ := pushByte_cases data s.whitener
  · omega
  · rw [chunk_of_last_push hwf hlast, hlast] at hsponge
    rw [respond_whitener, hchunk, hpool, hpoolRd, hchCnt]
    exact ⟨hsponge, fun a _ => read_ofBytes _ a, rfl, rfl, fun a ha => read_write_other hwf ha data,
      rfl, rfl, rfl, rfl⟩

/-- Settles O17: the accepted `PUSH.WH` changes each unit as that unit's own push does, and neither push looks
at the other unit. -/
theorem pushWHFeedsBothUnits : Obligations.PushWHFeedsBothUnits := by
  refine ⟨fun _ => rfl, fun data s hempty hroom => ?both, fun data s hbusy => ?busy,
    fun data s hempty hsat => ?saturated⟩
  case both =>
    obtain ⟨hb, hs⟩ := (guards_false_iff s).2 ⟨hempty, hroom⟩
    exact ⟨_, _, _, _, _, exec_pushWH_accepted data hb hs,
      exec_pushH_accepted data hs, exec_pushW_accepted data hempty,
      exec_pushW_accepted data hempty, exec_pushH_accepted data hs,
      ⟨rfl, rfl, rfl⟩, ⟨rfl, rfl, rfl⟩, rfl, rfl, rfl, rfl, rfl⟩
  case busy => exact (exec_whitener_push_busy data hbusy).2
  case saturated =>
    rw [exec_pushWH, (poolBusy_eq_false_iff _).2 hempty, (saturated_iff _).2 hsat]
    rfl

/-- Settles O18, by the two cases of `RDPOOL`; the pool is empty after the read at 2047. -/
theorem rdpoolDeliversTheNextByte : Obligations.RdpoolDeliversTheNextByte := by
  refine ⟨rfl, fun s hheld => ?_, exec_rdpool_empty⟩
  obtain ⟨p, hp, e⟩ := exec_rdpool_delivers s hheld
  refine ⟨_, _, e, hp, rfl, BitVec.toNat_setWidth_of_le (by decide), fun _ => rfl, fun _ => rfl, rfl, rfl,
    rfl, rfl, rfl, fun hlast data => ⟨_, exec_pushW_accepted data ?_, rfl⟩⟩
  rw [hlast] at hp
  exact hp

/-- Settles O19: `DISCARD` sets `CHCNT` to 0 and does nothing else. -/
theorem discardEmptiesTheChunkBuffer : Obligations.DiscardEmptiesTheChunkBuffer := by
  refine ⟨rfl, fun s => ⟨_, exec_discard s, rfl, rfl, rfl, fun _ => rfl, rfl, rfl, rfl, rfl, fun hnone => ?_⟩⟩
  have hsame : { s.whitener with chCnt := 0 } = s.whitener := by rw [← Fin.ext (b := 0) hnone]
  exact ⟨hsame, rfl, rfl⟩

end Sys2Proof.Machine
end

section
/-! ### The whitener's history along a run from reset (10_state.md R49, 40_whitener_ops.md R112) -/

namespace Sys2Proof.Machine

/-- The answer of a command is the newest response. -/
theorem Answered.lastResponse {i : Instr} {s t : State} {r : Response} (a : Answered i s t r) :
    t.lastResponse = some r := by
  rw [State.lastResponse, a.outbox, List.head?_cons]

theorem issue_answered (i : Instr) (s : State) : ∃ r, Answered i s (s.issue i) r :=
  answered_of_exec (exec_eq_issue i s)

/-- A recorded command continues the history with its own answer. -/
theorem recordCommand_of_answered {i : Instr} {s : State} {r : Response} (a : Answered i s (s.issue i) r)
    (h : WhitenerHistory) : recordCommand (s, h) i = (s.issue i, h.after i r) := by
  simp only [recordCommand, a.lastResponse]

/-- A state beside its history: the whitener is where the history leads, its stores in canonical form. -/
structure RecordedRun (p : State × WhitenerHistory) : Prop where
  tracks : p.2.Tracks p.1.whitener
  stores : p.1.whitener.StoresCanonical

theorem RecordedRun.continued {p : State × WhitenerHistory} (hp : RecordedRun p) (i : Instr) :
    RecordedRun (recordCommand p i) := by
  obtain ⟨r, a⟩ := issue_answered i p.1
  rw [recordCommand_of_answered a p.2]
  exact ⟨a.whitener.tracks hp.tracks hp.stores.1, a.whitener.storesCanonical hp.stores⟩

/-- Every run from reset leads where its own history says. -/
theorem recordedRun_of_reset (commands : List Instr) : RecordedRun (runFromReset commands) :=
  List.foldlRecOn commands recordCommand ⟨start_tracks_reset, whitener_reset_storesCanonical⟩
    fun _ hp i _ => hp.continued i

/-- Chunks of 256 bytes hold 256 bytes each. -/
theorem flatten_chunks_length {chunks : List (List Byte)} (h : ∀ c ∈ chunks, c.length = 256) :
    chunks.flatten.length = 256 * chunks.length := by
  rw [List.length_flatten, List.sum_eq_card_nsmul _ 256 (by simpa using h), List.length_map, smul_eq_mul, mul_comm]

/-- Settles O24: after every run the history leads to the state, and its chunks are of 256 bytes. -/
theorem outputStreamIsDeliveredInOrder : Obligations.OutputStreamIsDeliveredInOrder := by
  intro commands
  obtain ⟨⟨hlen, hsponge, -, hstream, -⟩, -⟩ := recordedRun_of_reset commands
  refine ⟨⟨_, hstream⟩, hstream, hsponge, ?_⟩
  rw [hsponge, absorbBytes_absPos, flatten_chunks_length hlen, sponge_zero_absPos]
  simp

end Sys2Proof.Machine
end

section
/-! ### Bytes shown to the monitor and commands short of a chunk (40_whitener_ops.md R102, R108) -/

namespace Sys2Proof.Machine

/-- Bytes shown to the monitor one after the other, without the guard of the count. -/
def monitorBytes (m : Monitor) (bytes : List Byte) : Monitor := bytes.foldl (fun n data => monitorByte data n) m

@[simp] theorem monitorBytes_nil (m : Monitor) : monitorBytes m [] = m := rfl

@[simp] theorem monitorBytes_cons (m : Monitor) (data : Byte) (bytes : List Byte) :
    monitorBytes m (data :: bytes) = monitorBytes (monitorByte data m) bytes := rfl

theorem monitorBytes_append (m : Monitor) (a b : List Byte) :
    monitorBytes m (a ++ b) = monitorBytes (monitorBytes m a) b := List.foldl_append

/-- Every byte counts eight bits, as long as there is room. -/
theorem monitorBytes_totBits_toNat (bytes : List Byte) (m : Monitor)
    (h : m.totBits.toNat + 8 * bytes.length < 2 ^ 64) :
    (monitorBytes m bytes).totBits.toNat = m.totBits.toNat + 8 * bytes.length := by
  induction bytes generalizing m with
  | nil => rfl
  | cons data bytes ih =>
    rw [List.length_cons] at h ⊢
    have hbyte := monitorByte_totBits_toNat data m (by omega)
    rw [monitorBytes_cons, ih _ (by omega), hbyte]
    omega

/-- With room for a byte the count guard lets it pass (42_health_monitor_ops.md R151). -/
theorem not_saturated_of_room {m : Monitor} (h : m.totBits.toNat + 8 < 2 ^ 64) : m.saturated = false := by
  rw [← Bool.not_eq_true, saturated_iff]
  omega

/-- On an empty pool and with room in the count, the monitor runs the byte that a command carries to it. -/
theorem issue_monitor {i : Instr} {s : State} (hempty : s.whitener.poolRd.val = 2048)
    (hroom : s.monitor.totBits.toNat + 8 * (bytesToMonitor i).length < 2 ^ 64) :
    (s.issue i).monitor = monitorBytes s.monitor (bytesToMonitor i) := by
  cases i with
  | pushH data => rw [issue_eq_of_exec (exec_pushH_accepted data (not_saturated_of_room hroom))]; rfl
  | pushWH data =>
    have hidle := (poolBusy_eq_false_iff _).2 hempty
    rw [issue_eq_of_exec (exec_pushWH_accepted data hidle (not_saturated_of_room hroom))]; rfl
  | _ => exact issue_monitor_of_no_push rfl s

/-- `CSRW` is the only command that writes the configuration (10_state.md R40 to R42). -/
theorem issue_config {i : Instr} (hi : ∀ csr value, i ≠ .csrw csr value) (s : State) :
    (s.issue i).config = s.config := by
  have whitenerCommand (h : i = .rdpool ∨ i = .discard ∨ ∃ d, i = .pushW d) :
      (s.issue i).config = s.config := by
    obtain ⟨w, r, e⟩ := exec_whitener_command h s.whitener
    rw [issue_eq_of_exec (e s.monitor s.config s.inbox s.outbox)]
  have monitorCommand (h : i = .healthy ∨ i = .entropy ∨ ∃ d, i = .pushH d) :
      (s.issue i).config = s.config := by
    obtain ⟨m, r, e⟩ := exec_monitor_command h s.monitor s.config
    rw [issue_eq_of_exec (e s.whitener s.inbox s.outbox)]
  cases i with
  | pushW data => exact whitenerCommand (.inr (.inr ⟨data, rfl⟩))
  | rdpool => exact whitenerCommand (.inl rfl)
  | discard => exact whitenerCommand (.inr (.inl rfl))
  | pushH data => exact monitorCommand (.inr (.inr ⟨data, rfl⟩))
  | healthy => exact monitorCommand (.inl rfl)
  | entropy => exact monitorCommand (.inr (.inl rfl))
  | pushWH data => rw [State.issue, exec_pushWH]; split_ifs <;> rfl
  | csrr csr =>
    obtain ⟨status, rdata, e⟩ := exec_query (.inr (.inr ⟨csr, rfl⟩)) s
    rw [issue_eq_of_exec (e s (.refl s)), respond_config]
  | csrw csr value => exact absurd rfl (hi csr value)

theorem foldl_issue_config {commands : List Instr} (h : ∀ i ∈ commands, ∀ csr value, i ≠ .csrw csr value)
    (s : State) : (commands.foldl State.issue s).config = s.config :=
  List.foldlRecOn (motive := fun u => u.config = s.config) commands State.issue rfl
    fun u hu i hi => (issue_config (h i hi) u).trans hu

/-- Nothing of the whitener but the chunk buffer differs. -/
structure Whitener.SameBeyondChunk (v w : Whitener) : Prop where
  sponge : w.sponge = v.sponge
  pool : w.pool = v.pool
  poolRd : w.poolRd = v.poolRd

theorem Whitener.SameBeyondChunk.trans {u v w : Whitener} (huv : u.SameBeyondChunk v)
    (hvw : v.SameBeyondChunk w) : u.SameBeyondChunk w :=
  ⟨hvw.sponge.trans huv.sponge, hvw.pool.trans huv.pool, hvw.poolRd.trans huv.poolRd⟩

/-- A command that does not push the 256th byte moves nothing of an empty-pooled whitener but its chunk
buffer, which grows by no more than the byte pushed. -/
theorem WhitenerStep.short_of_a_chunk {w w' : Whitener} {i : Instr} {r : Response}
    (st : WhitenerStep w i r w') (hempty : w.poolRd.val = 2048)
    (hshort : w.chCnt.val + (bytesToWhitener i).length < 256) :
    w.SameBeyondChunk w' ∧ w'.chCnt.val ≤ w.chCnt.val + (bytesToWhitener i).length := by
  cases st with
  | unchanged _ hw => subst hw; exact ⟨⟨rfl, rfl, rfl⟩, Nat.le_add_right _ _⟩
  | pushed data hi _ _ hw =>
    subst hw
    rw [hi, List.length_singleton] at hshort ⊢
    obtain ⟨-, hsponge, hpool, hpoolRd, hchCnt, -⟩ | ⟨hfull, -⟩ := pushByte_cases data w
    · exact ⟨⟨hsponge, hpool, hpoolRd⟩, hchCnt.le⟩
    · omega
  | discarded _ _ hw => subst hw; exact ⟨⟨rfl, rfl, rfl⟩, Nat.zero_le _⟩
  | delivered p hp => have := p.isLt; omega

theorem issue_short_of_a_chunk {i : Instr} {s : State} (hempty : s.whitener.poolRd.val = 2048)
    (hshort : s.whitener.chCnt.val + (bytesToWhitener i).length < 256) :
    s.whitener.SameBeyondChunk (s.issue i).whitener ∧
    (s.issue i).whitener.chCnt.val ≤ s.whitener.chCnt.val + (bytesToWhitener i).length := by
  obtain ⟨r, a⟩ := issue_answered i s
  exact a.whitener.short_of_a_chunk hempty hshort

/-- Commands that push fewer bytes than the chunk still lacks move nothing of the whitener but the chunk
buffer, and with room in the count the monitor runs every byte they carry to it. -/
theorem foldl_issue_short_of_a_chunk (commands : List Instr) {s : State}
    (hempty : s.whitener.poolRd.val = 2048)
    (hshort : s.whitener.chCnt.val + (commands.flatMap bytesToWhitener).length < 256) :
    s.whitener.SameBeyondChunk (commands.foldl State.issue s).whitener ∧
    (s.monitor.totBits.toNat + 8 * (commands.flatMap bytesToMonitor).length < 2 ^ 64 →
      (commands.foldl State.issue s).monitor = monitorBytes s.monitor (commands.flatMap bytesToMonitor)) := by
  induction commands generalizing s with
  | nil => exact ⟨⟨rfl, rfl, rfl⟩, fun _ => rfl⟩
  | cons i commands ih =>
    rw [List.flatMap_cons, List.length_append] at hshort
    obtain ⟨hfirst, hgrown⟩ := issue_short_of_a_chunk hempty (i := i) (by omega)
    obtain ⟨hrest, hmonitor⟩ := ih (s := s.issue i) (by rw [hfirst.poolRd, hempty]) (by omega)
    refine ⟨hfirst.trans hrest, fun hroom => ?_⟩
    rw [List.flatMap_cons, List.length_append] at hroom
    have hi := issue_monitor (i := i) hempty (by omega)
    have hcount := monitorBytes_totBits_toNat (bytesToMonitor i) s.monitor (by omega)
    rw [List.foldl_cons, hmonitor (by rw [hi, hcount]; omega), hi, List.flatMap_cons, monitorBytes_append]

/-- `DISCARD` after such commands gives back all that the whitener held. -/
theorem Whitener.SameBeyondChunk.sameHeld_of_discarded {v w : Whitener} (h : v.SameBeyondChunk w)
    (hnone : v.chCnt.val = 0) : v.SameHeld { w with chCnt := 0 } :=
  ⟨h.sponge, (Fin.ext hnone).symm, h.poolRd, fun a ha => by omega, fun a _ _ => congrArg (·.read a) h.pool⟩

/-- Settles O20: the commands short of a chunk moved the chunk buffer alone, and `DISCARD` empties it. -/
theorem discardUndoesAPartialChunk : Obligations.DiscardUndoesAPartialChunk := by
  intro s commands hempty hnone hshort u t counted
  obtain ⟨hsame, hmonitor⟩ := foldl_issue_short_of_a_chunk commands hempty (by omega)
  have ht : t = State.respond { u with whitener := { u.whitener with chCnt := 0 } } .ok 0 :=
    issue_eq_of_exec (exec_discard u)
  rw [ht]
  exact ⟨hsame.sameHeld_of_discarded hnone, rfl, rfl, rfl, hmonitor, fun h => foldl_issue_config h s⟩

end Sys2Proof.Machine
end

section
/-! ### The host read (40_whitener_ops.md R110 to R112) -/

namespace Sys2Proof.Machine

/-- The push of a host that feeds the monitor with the raw bytes, or feeds it elsewhere (R110). -/
def hostPush (monitored : Bool) : Byte → Instr := if monitored then .pushWH else .pushW

/-- What a host's pushed bytes make of the monitor. -/
def hostMonitor (monitored : Bool) (m : Monitor) (bytes : List Byte) : Monitor :=
  if monitored then monitorBytes m bytes else m

@[simp] theorem hostMonitor_nil (monitored : Bool) (m : Monitor) : hostMonitor monitored m [] = m :=
  ite_self m

theorem hostMonitor_append (monitored : Bool) (m : Monitor) (a b : List Byte) :
    hostMonitor monitored m (a ++ b) = hostMonitor monitored (hostMonitor monitored m a) b := by
  cases monitored
  · rfl
  · exact monitorBytes_append m a b

theorem hostMonitor_cons (monitored : Bool) (m : Monitor) (b : Byte) (bytes : List Byte) :
    hostMonitor monitored m (b :: bytes) = hostMonitor monitored (hostMonitor monitored m [b]) bytes :=
  hostMonitor_append monitored m [b] bytes

/-- The count has room for `n` bytes, if the monitor is to see them. -/
def HasRoom (monitored : Bool) (m : Monitor) (n : Nat) : Prop :=
  monitored = true → m.totBits.toNat + 8 * n < 2 ^ 64

theorem HasRoom.mono {monitored : Bool} {m : Monitor} {n k : Nat} (h : HasRoom monitored m n) (hk : k ≤ n) :
    HasRoom monitored m k := fun hm => by
  have := h hm
  omega

/-- Room is used up byte by byte. -/
theorem HasRoom.after {monitored : Bool} {m : Monitor} {n : Nat} (bytes : List Byte)
    (h : HasRoom monitored m (bytes.length + n)) : HasRoom monitored (hostMonitor monitored m bytes) n := by
  rintro rfl
  have hroom := h rfl
  rw [hostMonitor, if_pos rfl, monitorBytes_totBits_toNat bytes m (by omega)]
  omega

/-- Nothing is gathered and the stores are canonical: how every pass of the host's loop begins and ends. -/
structure HostReady (s : State) : Prop where
  chCnt : s.whitener.chCnt.val = 0
  stores : s.whitener.StoresCanonical

/-- State `t` is `s` after the host has completed chunks of these bytes. -/
structure HostFed (monitored : Bool) (bytes : List Byte) (s t : State) : Prop where
  sponge : t.whitener.sponge = absorbBytes s.whitener.sponge bytes
  ready : HostReady t
  monitor : t.monitor = hostMonitor monitored s.monitor bytes
  config : t.config = s.config

theorem HostFed.trans {monitored : Bool} {a b : List Byte} {s t u : State}
    (hst : HostFed monitored a s t) (htu : HostFed monitored b t u) : HostFed monitored (a ++ b) s u where
  sponge := by rw [htu.sponge, hst.sponge, absorbBytes_append]
  ready := htu.ready
  monitor := by rw [htu.monitor, hst.monitor, hostMonitor_append]
  config := htu.config.trans hst.config

/-- What moves neither the sponge nor the monitor nor the configuration feeds no byte. -/
theorem hostFed_nil {monitored : Bool} {s t : State} (hready : HostReady t)
    (hsponge : t.whitener.sponge = s.whitener.sponge) (hmonitor : t.monitor = s.monitor)
    (hconfig : t.config = s.config) : HostFed monitored [] s t :=
  ⟨by rw [hsponge, absorbBytes_nil], hready, by rw [hmonitor, hostMonitor_nil], hconfig⟩

/-! #### One chunk -/

/-- An accepted push of the host. -/
theorem issue_hostPush (monitored : Bool) (b : Byte) {s : State} (hempty : s.whitener.poolRd.val = 2048)
    (hroom : HasRoom monitored s.monitor 1) :
    s.issue (hostPush monitored b) = State.respond
      { s with monitor := hostMonitor monitored s.monitor [b], whitener := pushByte b s.whitener } .ok 0 := by
  cases monitored with
  | false => exact issue_eq_of_exec (exec_pushW_accepted b hempty)
  | true =>
    exact issue_eq_of_exec (exec_pushWH_accepted b ((poolBusy_eq_false_iff _).2 hempty)
      (not_saturated_of_room (hroom rfl)))

/-- The host's pushes into an empty pool, no more than complete the chunk, are all accepted. -/
theorem foldl_issue_hostPush (monitored : Bool) (bytes : List Byte) {s : State}
    (hempty : s.whitener.poolRd.val = 2048) (hlen : s.whitener.chCnt.val + bytes.length ≤ 256)
    (hroom : HasRoom monitored s.monitor bytes.length) :
    ∃ outbox, bytes.foldl (fun u b => u.issue (hostPush monitored b)) s =
      { s with monitor := hostMonitor monitored s.monitor bytes
               whitener := pushBytes s.whitener bytes
               outbox := outbox } := by
  induction bytes generalizing s with
  | nil => rw [hostMonitor_nil]; exact ⟨_, rfl⟩
  | cons b bytes ih =>
    rw [List.length_cons] at hlen hroom
    rw [List.foldl_cons, issue_hostPush monitored b hempty (hroom.mono (by omega)),
      hostMonitor_cons monitored s.monitor b bytes]
    obtain ⟨-, -, -, hpoolRd, hchCnt, -⟩ | ⟨hfull, -⟩ := pushByte_cases b s.whitener
    · refine ih ?_ ?_ ?_
      · rwa [respond_whitener, hpoolRd]
      · rw [respond_whitener, hchCnt]; omega
      · exact HasRoom.after [b] (hroom.mono (Nat.add_comm _ _).le)
    · obtain rfl : bytes = [] := List.eq_nil_of_length_eq_zero (by omega)
      rw [hostMonitor_nil]; exact ⟨_, rfl⟩

theorem pushBytes_storesCanonical (bytes : List Byte) {w : Whitener} (h : w.StoresCanonical) :
    (pushBytes w bytes).StoresCanonical :=
  List.foldlRecOn (motive := Whitener.StoresCanonical) bytes _ h fun v hv b _ => pushByte_storesCanonical b v hv

/-- The pushes of one fetched chunk: the round has run, and all of its block is undelivered. -/
theorem hostFed_chunk {monitored : Bool} (c : Vector Byte 256) {s : State} (hs : HostReady s)
    (hempty : s.whitener.poolRd.val = 2048) (hroom : HasRoom monitored s.monitor 256) :
    let t := c.toList.foldl (fun u b => u.issue (hostPush monitored b)) s
    HostFed monitored c.toList s t ∧ t.whitener.undelivered = squeeze2048 t.whitener.sponge := by
  have hlen : s.whitener.chCnt.val + c.toList.length = 256 := by rw [hs.chCnt, Vector.length_toList]
  obtain ⟨outbox, e⟩ := foldl_issue_hostPush monitored c.toList hempty hlen.le
    (by rwa [Vector.length_toList])
  obtain ⟨hsponge, hblock, hchCnt, -⟩ := pushBytes_completes_chunk hs.stores.1 hlen
  rw [hs.chCnt, firstBytes_zero, List.nil_append] at hsponge
  intro t
  rw [show t = _ from e]
  exact ⟨⟨hsponge, ⟨congrArg Fin.val hchCnt, pushBytes_storesCanonical _ hs.stores⟩, rfl, rfl⟩, hblock⟩

/-! #### The loop -/

/-- What the pool still holds followed by the blocks of these chunks (R112). -/
def hostStream (w : Whitener) (chunks : List (Vector Byte 256)) : List Byte :=
  w.undelivered ++ outputFrom w.sponge (chunks.map Vector.toList)

@[simp] theorem hostStream_nil (w : Whitener) : hostStream w [] = w.undelivered := List.append_nil _

@[simp] theorem hostStream_length (w : Whitener) (chunks : List (Vector Byte 256)) :
    (hostStream w chunks).length = w.poolCnt + 2048 * chunks.length := by
  rw [hostStream, List.length_append, undelivered_length, outputFrom_length, List.length_map]

/-- After the round of the first chunk the stream goes on with that round's block. -/
theorem hostStream_cons {v w : Whitener} {c : Vector Byte 256} (hsponge : w.sponge = absorbBytes v.sponge c.toList)
    (hblock : w.undelivered = squeeze2048 w.sponge) (chunks : List (Vector Byte 256)) :
    hostStream v (c :: chunks) = v.undelivered ++ hostStream w chunks := by
  rw [hostStream, hostStream, List.map_cons, outputFrom_cons, hblock, hsponge]

theorem poolRd_of_undelivered_nil {w : Whitener} (h : w.undelivered = []) : w.poolRd.val = 2048 := by
  have hcnt : w.poolCnt = 0 := by rw [← undelivered_length, h, List.length_nil]
  have := w.poolRd.isLt
  rw [Whitener.poolCnt] at hcnt
  omega

section
variable {monitored : Bool} (fuel want : Nat) (out : List Byte) (raw : List RawFetch)

/-- Bytes that the pool still holds are taken off it, one pass for each. -/
theorem hostReadLoop_takes_held (k : Nat) {s : State} (hs : HostReady s)
    (hk : k ≤ s.whitener.poolCnt) :
    ∃ t, hostReadLoop (hostPush monitored) (fuel + k) (want + k) out raw s =
        hostReadLoop (hostPush monitored) fuel want (out ++ s.whitener.undelivered.take k) raw t ∧
      t.whitener.undelivered = s.whitener.undelivered.drop k ∧ HostFed monitored [] s t := by
  induction k generalizing s out with
  | zero => exact ⟨s, by rw [List.take_zero, List.append_nil]; rfl, rfl, hostFed_nil hs rfl rfl rfl⟩
  | succ k ih =>
    rw [Whitener.poolCnt] at hk
    obtain ⟨p, hp, e⟩ := hostReadLoop_takes (hostPush monitored) (fuel + k) (want + k) out raw s (by omega)
    have htaken : HostFed monitored [] s (State.respond { s with whitener := { s.whitener with poolRd := p } }
        .ok ((s.whitener.pool.read s.whitener.poolRd.val).setWidth 64)) :=
      hostFed_nil ⟨hs.chCnt, hs.stores⟩ rfl rfl rfl
    obtain ⟨t, hloop, hleft, ht⟩ := ih (out ++ [s.whitener.pool.read s.whitener.poolRd.val]) htaken.ready
      (by simp only [respond_whitener, Whitener.poolCnt, hp]; omega)
    rw [undelivered_of_held hp, List.take_succ_cons, List.drop_succ_cons, List.append_cons]
    exact ⟨t, e.trans hloop, hleft, htaken.trans ht⟩

/-- On an empty pool a chunk that is fetched is fed, and its block fills the pool. -/
theorem hostReadLoop_feeds_chunk (c : Vector Byte 256) {s : State} (hs : HostReady s)
    (hempty : s.whitener.poolRd.val = 2048) (hroom : HasRoom monitored s.monitor 256) :
    ∃ t, hostReadLoop (hostPush monitored) (fuel + 1) (want + 1) out (some c :: raw) s =
        hostReadLoop (hostPush monitored) fuel (want + 1) out raw t ∧
      t.whitener.undelivered = squeeze2048 t.whitener.sponge ∧ HostFed monitored c.toList s t := by
  have hrefused : HostFed monitored [] s (s.respond .errPoolEmpty 0) :=
    hostFed_nil ⟨hs.chCnt, hs.stores⟩ rfl rfl rfl
  obtain ⟨hfed, hblock⟩ := hostFed_chunk c hrefused.ready hempty hroom
  exact ⟨_, hostReadLoop_fetches _ fuel want out raw s c hempty, hblock, hrefused.trans hfed⟩

/-- One round: the loop takes what the pool still holds, finds it empty and feeds the next chunk. -/
theorem hostReadLoop_takes_round (c : Vector Byte 256) {s : State} (hs : HostReady s)
    (hroom : HasRoom monitored s.monitor 256) :
    ∃ t, hostReadLoop (hostPush monitored) (fuel + 1 + s.whitener.poolCnt) (want + 1 + s.whitener.poolCnt) out
          (some c :: raw) s =
        hostReadLoop (hostPush monitored) fuel (want + 1) (out ++ s.whitener.undelivered) raw t ∧
      t.whitener.undelivered = squeeze2048 t.whitener.sponge ∧ HostFed monitored c.toList s t := by
  obtain ⟨t, htake, hnone, ht⟩ := hostReadLoop_takes_held (fuel + 1) (want + 1) out (some c :: raw) _ hs le_rfl
  rw [List.take_of_length_le (undelivered_length _).le] at htake
  rw [List.drop_of_length_le (undelivered_length _).le] at hnone
  obtain ⟨u, hfetch, hblock, hu⟩ := hostReadLoop_feeds_chunk fuel want (out ++ s.whitener.undelivered) raw c
    ht.ready (poolRd_of_undelivered_nil hnone) (by rwa [ht.monitor, hostMonitor_nil])
  exact ⟨u, htake.trans hfetch, hblock, ht.trans hu⟩

/-- As long as the chunks are as few as reach the next `k` bytes of the stream, the loop fetches them all and
takes these `k` bytes. -/
theorem hostReadLoop_takes_stream (chunks : List (Vector Byte 256)) (k : Nat) {s : State}
    (hs : HostReady s) (hroom : HasRoom monitored s.monitor (256 * chunks.length))
    (hk : k ≤ (hostStream s.whitener chunks).length)
    (hfew : chunks = [] ∨ (hostStream s.whitener chunks).length < k + 2048) :
    ∃ t, hostReadLoop (hostPush monitored) (fuel + chunks.length + k) (want + k) out (chunks.map some ++ raw) s =
        hostReadLoop (hostPush monitored) fuel want (out ++ (hostStream s.whitener chunks).take k) raw t ∧
      t.whitener.undelivered = (hostStream s.whitener chunks).drop k ∧
      HostFed monitored (chunks.map Vector.toList).flatten s t := by
  induction chunks generalizing s out k with
  | nil =>
    rw [hostStream_nil] at hk ⊢
    exact hostReadLoop_takes_held fuel want out raw k hs (by rwa [undelivered_length] at hk)
  | cons c chunks ih =>
    rw [hostStream_length, List.length_cons] at hk hfew
    replace hfew := hfew.resolve_left (List.cons_ne_nil _ _)
    rw [List.length_cons, Nat.mul_succ, Nat.add_comm] at hroom
    obtain ⟨j, rfl⟩ : ∃ j, k = s.whitener.poolCnt + (j + 1) := ⟨k - s.whitener.poolCnt - 1, by omega⟩
    obtain ⟨t, hround, hblock, ht⟩ := hostReadLoop_takes_round (fuel + chunks.length + (j + 1)) (want + j) out
      (chunks.map some ++ raw) c hs (hroom.mono (Nat.le_add_right _ _))
    have hcnt : t.whitener.poolCnt = 2048 := by rw [← undelivered_length, hblock, squeeze2048_length]
    obtain ⟨u, hrest, hleft, hu⟩ := ih (out ++ s.whitener.undelivered) (j + 1) ht.ready
      (by rw [ht.monitor]; exact HasRoom.after _ (by rwa [Vector.length_toList]))
      (by rw [hostStream_length]; omega) (by rw [hostStream_length]; omega)
    have hfuel : fuel + (chunks.length + 1) + (s.whitener.poolCnt + (j + 1)) =
        fuel + chunks.length + (j + 1) + 1 + s.whitener.poolCnt := by omega
    have hwant : want + (s.whitener.poolCnt + (j + 1)) = want + j + 1 + s.whitener.poolCnt := by omega
    rw [List.length_cons, hfuel, hwant, hostStream_cons ht.sponge hblock, ← undelivered_length,
      List.take_length_add_append, List.drop_length_add_append, ← List.append_assoc, undelivered_length]
    exact ⟨u, hround.trans hrest, hleft, ht.trans hu⟩

end

/-- The loop gives up on an empty pool when the fetch fails: nothing is delivered, and what was gathered is
dropped. -/
theorem hostReadLoop_gives_up (push : Byte → Instr) (fuel want : Nat) (out : List Byte) {raw : List RawFetch}
    {s : State} (hempty : s.whitener.poolRd.val = 2048) (hraw : raw.head?.join = none) :
    ∃ outbox, hostReadLoop push (fuel + 1) (want + 1) out raw s =
      { delivered := none
        state := { s with whitener := { s.whitener with chCnt := 0 }, outbox := outbox } } :=
  ⟨_, by rw [hostReadLoop_fails push fuel want out raw s hempty hraw, issue_eq_of_exec (exec_discard _)]; rfl⟩

/-- `HostRead` of as many bytes as the chunks are fetched for returns them (R110). -/
theorem hostRead_returns {monitored : Bool} {chunks : List (Vector Byte 256)} {n : Nat} {s : State}
    (hs : HostReady s) (hroom : HasRoom monitored s.monitor (256 * chunks.length))
    (later : List RawFetch) (hn : n ≤ (hostStream s.whitener chunks).length)
    (hfew : chunks = [] ∨ (hostStream s.whitener chunks).length < n + 2048) :
    ∃ t, hostRead (hostPush monitored) n (chunks.map some ++ later) s =
        { delivered := some ((hostStream s.whitener chunks).take n), state := t } ∧
      t.whitener.undelivered = (hostStream s.whitener chunks).drop n ∧
      HostFed monitored (chunks.map Vector.toList).flatten s t := by
  obtain ⟨t, hloop, hleft, ht⟩ := hostReadLoop_takes_stream later.length 0 [] later chunks n hs hroom hn hfew
  have hfuel : n + (chunks.map some ++ later).length = later.length + chunks.length + n := by
    rw [List.length_append, List.length_map]; omega
  rw [Nat.zero_add, hostReadLoop_done, List.nil_append, ← hfuel] at hloop
  exact ⟨t, hloop, hleft, ht⟩

/-- `HostRead` of more bytes than the chunks give, after which no fetch succeeds, returns nothing (R111). -/
theorem hostRead_fails {monitored : Bool} {chunks : List (Vector Byte 256)} {n : Nat} {s : State}
    (hs : HostReady s) (hroom : HasRoom monitored s.monitor (256 * chunks.length))
    {later : List RawFetch} (hn : (hostStream s.whitener chunks).length < n) (hraw : later.head?.join = none) :
    ∃ t, hostRead (hostPush monitored) n (chunks.map some ++ later) s = { delivered := none, state := t } ∧
      t.whitener.poolRd.val = 2048 ∧ HostFed monitored (chunks.map Vector.toList).flatten s t := by
  obtain ⟨k, rfl⟩ : ∃ k, n = k + 1 + (hostStream s.whitener chunks).length :=
    ⟨n - (hostStream s.whitener chunks).length - 1, by omega⟩
  obtain ⟨t, hloop, hleft, ht⟩ := hostReadLoop_takes_stream (k + later.length + 1) (k + 1) [] later chunks _ hs
    hroom le_rfl (.inr (by omega))
  have hempty := poolRd_of_undelivered_nil (hleft.trans List.drop_length)
  obtain ⟨outbox, hend⟩ := hostReadLoop_gives_up (hostPush monitored) (k + later.length) k _ hempty hraw
  have hfuel : k + 1 + (hostStream s.whitener chunks).length + (chunks.map some ++ later).length =
      k + later.length + 1 + chunks.length + (hostStream s.whitener chunks).length := by
    rw [List.length_append, List.length_map]; omega
  rw [hend, ← hfuel] at hloop
  exact ⟨_, hloop, hempty, ht.sponge, ⟨rfl, ht.ready.stores⟩, ht.monitor, ht.config⟩

/-- Settles O57, by the loop's passes: every byte taken is the stream's next, every chunk fetched one more
round of it. -/
theorem hostReadReturnsTheOutputStream : Obligations.HostReadReturnsTheOutputStream := by
  refine ⟨fun push raw s => hostReadLoop_done push _ [] raw s,
    fun monitored chunks n s hnone hstores hroom => ?chunks, fun push n later s hn hempty => ?failsAtOnce⟩
  case chunks =>
    have hs : HostReady s := ⟨hnone, hstores⟩
    have hroom' : HasRoom monitored s.monitor (256 * chunks.length) := fun hm => by
      have := hroom hm
      omega
    refine ⟨hostStream_length s.whitener chunks, fun later hlen hfew => ?_, fun later hlen hraw => ?_⟩
    · obtain ⟨t, hread, hleft, ht⟩ := hostRead_returns hs hroom' later hlen hfew
      exact ⟨t, hread, hleft, ht.sponge, ht.ready.chCnt, ht.monitor, ht.config⟩
    · obtain ⟨t, hread, hempty, ht⟩ := hostRead_fails hs hroom' hlen hraw
      exact ⟨t, hread, hempty, ht.sponge, ht.ready.chCnt, ht.monitor, ht.config⟩
  case failsAtOnce =>
    obtain ⟨k, rfl⟩ : ∃ k, n = k + 1 := ⟨n - 1, by omega⟩
    obtain ⟨outbox, hend⟩ := hostReadLoop_gives_up push (k + 1 + later.length) k [] (raw := none :: later)
      hempty rfl
    exact ⟨_, hend, rfl, rfl, hempty, rfl⟩

end Sys2Proof.Machine
end

section
/-! ### The permutation's steps and rounds, lane by lane (41_sponge_kernel.md R121 to R125, R131) -/

namespace Sys2Proof.Machine

/-- Lane indices count modulo 5: congruent indices name one lane (R121). -/
theorem lane_congr (A : Lanes) {x y x' y' : Nat} (hx : x % 5 = x' % 5) (hy : y % 5 = y' % 5) :
    lane A x y = lane A x' y' := by rw [← lane_mod A x y, hx, hy, lane_mod]

theorem thetaC_congr (A : Lanes) {x x' : Nat} (hx : x % 5 = x' % 5) : thetaC A x = thetaC A x' := by
  simp only [thetaC, lane_congr A hx rfl]

/-- Theta at any indices (R122). -/
theorem lane_theta (A : Lanes) (x y : Nat) : lane (theta A) x y = lane A x y ^^^ thetaD A x := by
  have h4 : thetaC A (x % 5 + 4) = thetaC A (x + 4) := thetaC_congr A (Nat.mod_add_mod x 5 4)
  have h1 : thetaC A (x % 5 + 1) = thetaC A (x + 1) := thetaC_congr A (Nat.mod_add_mod x 5 1)
  rw [theta, lane_lanesBy, lane_mod, thetaD, h4, h1, thetaD]

/-- Rho and pi in the rule's form, from the lane that is moved (R123). -/
theorem lane_rhoPi (A : Lanes) (x y : Nat) :
    lane (rhoPi A) y (2 * x + 3 * y) = (lane A x y).rotateLeft (rotationOffset x y) := by
  have hx : (y % 5 + 3 * ((2 * x + 3 * y) % 5)) % 5 = x % 5 := by omega
  have hy : y % 5 % 5 = y % 5 := Nat.mod_mod y 5
  rw [rhoPi, lane_lanesBy, lane_congr A hx hy, rotationOffset, hx, hy, ← rotationOffset]

/-- Chi at any indices (R124). -/
theorem lane_chi (B : Lanes) (x y : Nat) :
    lane (chi B) x y = lane B x y ^^^ (~~~(lane B (x + 1) y) &&& lane B (x + 2) y) := by
  have hy : y % 5 % 5 = y % 5 := Nat.mod_mod y 5
  rw [chi, lane_lanesBy, lane_mod, lane_congr B (Nat.mod_add_mod x 5 1) hy,
    lane_congr B (Nat.mod_add_mod x 5 2) hy]

/-- Iota touches the one lane whose indices are both 0 modulo 5 (R125). -/
theorem lane_iota (rc : Lane) (A : Lanes) (x y : Nat) :
    lane (iota rc A) x y = if x % 5 = 0 ∧ y % 5 = 0 then lane A x y ^^^ rc else lane A x y := by
  rw [iota, lane_lanesBy, lane_mod]

theorem roundConstants_length : roundConstants.length = 24 := rfl

/-- Folding over a list is folding over its indices. -/
theorem foldl_eq_foldl_range {α β : Type} (f : α → β → α) (l : List β) (d : β) (a : α) :
    l.foldl f a = (List.range l.length).foldl (fun a i => f a (l.getD i d)) a := by
  have hl : (List.range l.length).map (l.getD · d) = l :=
    List.ext_getElem (by simp) fun i _ hi => by simp [hi]
  rw [← List.foldl_map (f := (l.getD · d)) (g := f), hl]

/-- The lanes of `KeccakF(S)` are the lanes of `S` after the rounds (R121). -/
theorem lanesOfBytes_keccakF (S : SpongeBytes) : lanesOfBytes (keccakF S) = keccakLanes (lanesOfBytes S) := by
  rw [keccakF_eq]
  exact lanesOfBytes_bytesOfLanes (keccakLanes_length (lanesBy_length _))

/-- The rounds are numbered by the index of their constant (R121). -/
theorem keccakLanes_eq_foldl_range (A : Lanes) :
    keccakLanes A = (List.range 24).foldl (fun A ir => keccakRound A (roundConstants.getD ir 0)) A :=
  foldl_eq_foldl_range keccakRound roundConstants 0 A

/-- Settles O26: the rounds run over the table of constants, which is running over its indices. -/
theorem keccakRunsTwentyFourRounds : Obligations.KeccakRunsTwentyFourRounds :=
  ⟨roundConstants_length, lane_mod,
    fun S => (lanesOfBytes_keccakF S).trans (keccakLanes_eq_foldl_range (lanesOfBytes S))⟩

/-- Settles O27, step by step from the laws of the steps at any indices. -/
theorem keccakStepsFollowTheirFormulas : Obligations.KeccakStepsFollowTheirFormulas := by
  refine fun A x y => ⟨?theta, ⟨rotationRow x.val, ?row, ?rhoPi⟩, ?chi⟩
  case theta =>
    have h4 : thetaC A ((x.val + 4) % 5) = thetaC A (x.val + 4) := thetaC_congr A (Nat.mod_mod _ 5)
    have h1 : thetaC A ((x.val + 1) % 5) = thetaC A (x.val + 1) := thetaC_congr A (Nat.mod_mod _ 5)
    show _ = _ ^^^ (thetaC A ((x.val + 4) % 5) ^^^ (thetaC A ((x.val + 1) % 5)).rotateLeft 1)
    rw [lane_theta, h4, h1, thetaD]
  case row =>
    show _ ∈ (List.range 5).map fun i => (i, rotationRow i)
    exact List.mem_map_of_mem (List.mem_range.2 x.isLt)
  case rhoPi =>
    rw [lane_congr (rhoPi A) rfl (Nat.mod_mod _ 5), lane_rhoPi, rotationOffset, Nat.mod_eq_of_lt x.isLt,
      Nat.mod_eq_of_lt y.isLt]
  case chi =>
    rw [lane_chi, lane_congr A (Nat.mod_mod (x.val + 1) 5) rfl, lane_congr A (Nat.mod_mod (x.val + 2) 5) rfl]

/-- Settles O28: iota's law at indices below 5, and the table read off. -/
theorem iotaAddsTheRoundConstant : Obligations.IotaAddsTheRoundConstant := by
  refine ⟨fun A rc x y => ?_, roundConstants_length, rfl⟩
  rw [lane_iota, Nat.mod_eq_of_lt x.isLt, Nat.mod_eq_of_lt y.isLt]
  split
  next h => rw [h.1, h.2]
  next => rfl

/-- The walk of R131 meets the offsets in the order of the triangular numbers. -/
theorem rotationOffset_rotationWalk : ∀ t, t < 24 →
    rotationOffset (rotationWalk t).1 (rotationWalk t).2 = (t + 1) * (t + 2) / 2 % 64 := by decide

/-- The bits of the round constants come out of the shift register (R131). -/
theorem roundConstants_getLsbD : ∀ ir, ir < 24 → ∀ b, b < 64 → (roundConstants.getD ir 0).getLsbD b =
    (List.range 7).any fun j => b == 2 ^ j - 1 && rcBit (j + 7 * ir) := by decide +kernel

/-- Settles O29: both tables are finite and are compared entry by entry with their generators. -/
theorem spongeTablesRegenerate : Obligations.SpongeTablesRegenerate :=
  ⟨rfl, rotationOffset_rotationWalk, rfl, roundConstants_getLsbD⟩

end Sys2Proof.Machine
end

section
/-! ### Absorbing up to the rate, and padding the copy (41_sponge_kernel.md R126, R127) -/

namespace Sys2Proof.Machine

/-- XORing one byte into a state at `i` changes byte `i` alone. -/
theorem getElem_set_xor (T : SpongeBytes) {i j : Nat} (hi : i < 200) (hj : j < 200) (b : Byte) :
    (T.set i (T[i] ^^^ b))[j] = if j = i then T[j] ^^^ b else T[j] := by
  rw [Vector.getElem_set]
  by_cases h : j = i
  · subst h; simp only [if_true]
  · rw [if_neg (Ne.symm h), if_neg h]

/-- Short of the rate, byte by byte (R126). -/
theorem absorbBytes_getElem_within_rate {sp : Sponge} {m : List Byte} (h : sp.absPos.val + m.length < 136)
    {j : Nat} (hj : j < 200) :
    (absorbBytes sp m).bytes[j] =
      if sp.absPos.val ≤ j ∧ j < sp.absPos.val + m.length
      then sp.bytes[j] ^^^ m.getD (j - sp.absPos.val) 0 else sp.bytes[j] := by
  rw [(absorbBytes_within_rate sp m h).2 j hj]
  by_cases hle : sp.absPos.val ≤ j
  · by_cases hlt : j < sp.absPos.val + m.length
    · rw [if_pos hle, if_pos ⟨hle, hlt⟩]
    · have hout : m.getD (j - sp.absPos.val) 0 = 0 := List.getD_eq_default _ _ (by omega)
      rw [if_pos hle, if_neg (fun h => hlt h.2), hout]
      exact BitVec.xor_zero
  · rw [if_neg hle, if_neg (fun h => hle h.1)]
    exact BitVec.xor_zero

/-- The byte absorbed at position 135 is XORed in there before the permutation runs (R126). -/
theorem absorbByte_fills_getElem {sp : Sponge} (b : Byte) (h : sp.absPos.val = 135) :
    ∃ X : SpongeBytes, absorbByte sp b = { bytes := keccakF X, absPos := 0 } ∧
      ∀ (j : Nat) (hj : j < 200), X[j] = if j = 135 then sp.bytes[j] ^^^ b else sp.bytes[j] :=
  ⟨_, absorbByte_fills sp b h, fun j hj => by rw [getElem_set_xor _ _ hj, h]⟩

/-- Filling the rate: the last byte joins the earlier ones, and the permutation runs once on the result
(R126). -/
theorem absorbBytes_fills_rate {sp : Sponge} {m : List Byte} (h : sp.absPos.val + m.length = 136) :
    ∃ X : SpongeBytes, absorbBytes sp m = { bytes := keccakF X, absPos := 0 } ∧
      ∀ (j : Nat) (hj : j < 200), X[j] =
        if sp.absPos.val ≤ j ∧ j < 136 then sp.bytes[j] ^^^ m.getD (j - sp.absPos.val) 0 else sp.bytes[j] := by
  have hp := sp.absPos.isLt
  have hne : m ≠ [] := fun hnil => by rw [hnil, List.length_nil] at h; omega
  obtain ⟨init, b, rfl⟩ := (List.eq_nil_or_concat' m).resolve_left hne
  rw [List.length_append, List.length_singleton] at h
  have hinit : sp.absPos.val + init.length < 136 := by omega
  have hpos : (absorbBytes sp init).absPos.val = 135 := by
    rw [(absorbBytes_within_rate sp init hinit).1]; omega
  obtain ⟨X, hX, hbytes⟩ := absorbByte_fills_getElem b hpos
  refine ⟨X, by rw [absorbBytes_append, absorbBytes_cons, absorbBytes_nil, hX], fun j hj => ?_⟩
  rw [hbytes j hj, absorbBytes_getElem_within_rate hinit hj]
  by_cases hlast : j = 135
  · have hb : (init ++ [b]).getD (j - sp.absPos.val) 0 = b := by
      rw [show j - sp.absPos.val = init.length by omega, List.getD_append_right _ _ _ _ le_rfl, Nat.sub_self]
      rfl
    rw [if_pos hlast, if_neg (by omega), if_pos (by omega), hb]
  · rw [if_neg hlast]
    by_cases hearlier : sp.absPos.val ≤ j ∧ j < sp.absPos.val + init.length
    · rw [if_pos hearlier, if_pos (by omega), List.getD_append _ _ _ _ (by omega)]
    · rw [if_neg hearlier, if_neg (by omega)]

/-- Settles O30, from the laws of absorption within the rate and at the rate. -/
theorem absorptionCarriesItsPosition : Obligations.AbsorptionCarriesItsPosition :=
  ⟨absorbBytes_append, absorbBytes_absPos, fun _ _ h _ hj => absorbBytes_getElem_within_rate h hj,
    fun _ _ h => absorbBytes_fills_rate h⟩

/-- The two padding marks of one byte are one mark (R127). -/
theorem xor_both_marks (b : Byte) : b ^^^ 0x1F ^^^ 0x80 = b ^^^ 0x9F := BitVec.xor_assoc b 0x1F 0x80

/-- Settles O31: the XOR at 135 is read after the XOR at the position, and the two compose where they
meet. -/
theorem padCopyMarksTheCopy : Obligations.PadCopyMarksTheCopy := by
  intro sp j hj
  rw [padCopy, getElem_set_xor _ _ hj, getElem_set_xor _ _ hj]
  by_cases hp : j = sp.absPos.val
  · by_cases hlast : j = 135
    · rw [if_pos hlast, if_pos hp, if_pos ⟨hp, hlast⟩, xor_both_marks]
    · rw [if_neg hlast, if_pos hp, if_neg fun h => hlast h.2, if_pos hp]
  · have hboth : ¬(j = sp.absPos.val ∧ j = 135) := fun h => hp h.1
    rw [if_neg hp, if_neg hboth, if_neg hp]

end Sys2Proof.Machine
end

section
/-! ### The blocks of the squeeze (41_sponge_kernel.md R128) -/

namespace Sys2Proof.Machine

/-- Byte `136*k + j` of the squeeze is byte `j` of `T_k`, in the whole blocks and in the piece of the last. -/
theorem squeeze2048_getD (sp : Sponge) {k j : Nat} (hk : k ≤ 15) (hj : j < 136) (hlast : k = 15 → j < 8) :
    (squeeze2048 sp).getD (136 * k + j) 0 = (keccakF^[k + 1] (padCopy sp))[j] := by
  rw [squeeze2048_eq, squeezeFrom_getD _ 15 k j hk hj hlast]
  simp only [permuted_eq_iterate, Function.iterate_succ_apply]

/-- Settles O32: the law of the squeeze at the whole blocks, and at the 8 bytes of block 15. -/
theorem squeezeIsLaidOutInBlocks : Obligations.SqueezeIsLaidOutInBlocks := fun sp =>
  ⟨squeeze2048_length sp, fun _ _ hk hj => squeeze2048_getD sp hk.le hj fun h => absurd h hk.ne,
    fun _ hj => squeeze2048_getD sp le_rfl (by omega) fun _ => hj⟩

end Sys2Proof.Machine
end

section
/-! ### The laws of the fixed-point logarithm and of the surprise (42_health_monitor_ops.md R152 to R154) -/

namespace Sys2Proof.Machine

theorem log2Fix_two_pow {k : Nat} (hk : k < 64) : log2Fix (2 ^ k) = k * 2 ^ 32 := by
  have h := log2Fix_two_pow_mul (k := k) (m := 1) le_rfl (by
    rw [Nat.mul_one]; exact Nat.pow_lt_pow_right (by norm_num) hk)
  rwa [Nat.mul_one, log2Fix_one, Nat.add_zero] at h

/-- The integer part of `Log2Fix(m)`, read off the octave `m` lies in. -/
theorem log2Fix_div_of_octave {e m : Nat} (hlow : 2 ^ e ≤ m) (hhigh : m < 2 ^ (e + 1)) (hm : m < 2 ^ 64) :
    log2Fix m / 2 ^ 32 = e := by
  have hpos : 1 ≤ m := Nat.one_le_two_pow.trans hlow
  have hlog : Nat.log2 m = e := (Nat.log2_eq_iff (Nat.ne_of_gt hpos)).2 ⟨hlow, hhigh⟩
  obtain ⟨h1, h2⟩ := log2Fix_range hpos hm
  rw [hlog] at h1 h2
  exact Nat.div_eq_of_lt_le h1 h2

theorem log2Fix_three_ten : log2Fix 3 = 6807362105 ∧ log2Fix 10 = 14267572527 := by decide +kernel

/-- Settles O37: doubling keeps the mantissa, and the loop adds less than one to the exponent. -/
theorem logarithmIsExactOnPowersOfTwo : Obligations.LogarithmIsExactOnPowersOfTwo :=
  ⟨log2Fix_one, fun _ => log2Fix_two_pow, fun _ _ => log2Fix_two_pow_mul,
    fun _ _ => log2Fix_div_of_octave, log2Fix_three_ten⟩

/-- The fallback for a value never seen (42_health_monitor_ops.md R152). -/
theorem surprise_zero (n : Nat) : surprise 0 n = 2 ^ 32 := rfl

/-- The difference of two logarithms for a value that was seen (42_health_monitor_ops.md R152). -/
theorem surprise_of_seen {c : Nat} (hc : 1 ≤ c) (n : Nat) : surprise c n = log2Fix n - log2Fix c :=
  if_neg (Nat.ne_of_gt hc)

/-- A value seen in one of `2^k` visits costs `k` whole bits (42_health_monitor_ops.md R154, S2). -/
theorem surprise_two_pow_mul {c k : Nat} (hc : 1 ≤ c) (h : 2 ^ k * c < 2 ^ 64) :
    surprise c (2 ^ k * c) = k * 2 ^ 32 := by
  rw [surprise_of_seen hc, log2Fix_two_pow_mul hc h, Nat.add_sub_cancel]

/-- More visits, no smaller cost (42_health_monitor_ops.md R154, S3). -/
theorem surprise_mono_visits {c n n' : Nat} (hc : 1 ≤ c) (hcn : c ≤ n) (hn : n ≤ n') (hn' : n' < 2 ^ 64) :
    surprise c n ≤ surprise c n' := by
  rw [surprise_of_seen hc, surprise_of_seen hc]
  exact Nat.sub_le_sub_right (log2Fix_mono (hc.trans hcn) hn hn') _

/-- A higher count, no larger cost (42_health_monitor_ops.md R154, S3). -/
theorem surprise_anti_count {c c' n : Nat} (hc : 1 ≤ c) (hcc : c ≤ c') (hcn : c' ≤ n) (hn : n < 2 ^ 64) :
    surprise c' n ≤ surprise c n := by
  rw [surprise_of_seen hc, surprise_of_seen (hc.trans hcc)]
  exact Nat.sub_le_sub_left (log2Fix_mono hc hcc (by omega)) _

/-- Settles O38, by exactness under doubling and monotonicity of the logarithm. -/
theorem surpriseFollowsItsLaws : Obligations.SurpriseFollowsItsLaws :=
  ⟨surprise_zero, fun _ h _ => surprise_self h, fun _ _ => surprise_two_pow_mul,
    fun _ _ _ => surprise_mono_visits, fun _ _ _ => surprise_anti_count⟩

end Sys2Proof.Machine
end

section
/-! ### The fixed-point logarithm against the real one (42_health_monitor_ops.md R154, S4)

Every truncation of the loop lowers the logarithm by at most `2^-95`, and the error of an iteration is doubled
by each later one; the loop then stops short of the real value by less than one unit more. -/

namespace Sys2Proof.Machine

/-- Adding one to a mantissa raises its logarithm by at most `2^-95`. -/
theorem logb_succ_le {q : ℝ} (hq : 2 ^ 96 ≤ q) : Real.logb 2 (q + 1) ≤ Real.logb 2 q + 1 / 2 ^ 95 := by
  have hpos : 0 < q := lt_of_lt_of_le (by positivity) hq
  have hln : Real.log (q + 1) - Real.log q ≤ 1 / 2 ^ 96 := by
    rw [← Real.log_div (by positivity) hpos.ne']
    calc Real.log ((q + 1) / q) ≤ (q + 1) / q - 1 := Real.log_le_sub_one_of_pos (by positivity)
      _ = 1 / q := by field_simp; ring
      _ ≤ 1 / 2 ^ 96 := one_div_le_one_div_of_le (by positivity) hq
  have htwo : (1 / 2 : ℝ) < Real.log 2 := lt_trans (by norm_num) Real.log_two_gt_d9
  rw [← sub_le_iff_le_add', Real.logb, Real.logb, ← sub_div, div_le_iff₀ (by positivity)]
  linarith

/-- Dropping `k` low bits takes `k` off the logarithm, up to the truncation. -/
theorem logb_shiftRight {a k : Nat} (h : 2 ^ 96 ≤ a >>> k) :
    Real.logb 2 ↑(a >>> k) ≤ Real.logb 2 a - k ∧
    Real.logb 2 a - k ≤ Real.logb 2 ↑(a >>> k) + 1 / 2 ^ 95 := by
  have hq : (2 : ℝ) ^ 96 ≤ ↑(a >>> k) := by exact_mod_cast h
  have hqpos : (0 : ℝ) < ↑(a >>> k) := lt_of_lt_of_le (by positivity) hq
  have hlow : (↑(a >>> k) : ℝ) * 2 ^ k ≤ a := by
    rw [Nat.shiftRight_eq_div_pow]; exact_mod_cast Nat.div_mul_le_self a (2 ^ k)
  have hhigh : (a : ℝ) ≤ (↑(a >>> k) + 1) * 2 ^ k := by
    rw [Nat.shiftRight_eq_div_pow]; rw [mul_comm]
    exact_mod_cast (Nat.lt_mul_div_succ a (Nat.two_pow_pos k)).le
  have hapos : (0 : ℝ) < a := lt_of_lt_of_le (by positivity) hlow
  have hmul (x : ℝ) (hx : 0 < x) : Real.logb 2 (x * 2 ^ k) = Real.logb 2 x + k := by
    rw [Real.logb_mul hx.ne' (by positivity), Real.logb_pow, Real.logb_self_eq_one one_lt_two, mul_one]
  have h1 := Real.logb_le_logb_of_le one_lt_two (by positivity) hlow
  have h2 := Real.logb_le_logb_of_le one_lt_two hapos hhigh
  have h3 := logb_succ_le hq
  rw [hmul _ hqpos] at h1
  rw [hmul _ (by positivity)] at h2
  constructor <;> linarith

/-- One iteration finds the bit `b` and goes on with the square shifted by `96 + b`, a mantissa again
(42_health_monitor_ops.md R153). -/
theorem log2Loop_finds_bit {x : Nat} (h : IsMantissa x) (left : Nat) :
    ∃ b, IsMantissa ((x * x) >>> (96 + b)) ∧
      log2Loop (left + 1) x 0 = b * 2 ^ left + log2Loop left ((x * x) >>> (96 + b)) 0 := by
  rw [log2Loop_succ]
  by_cases hs : 2 ^ 97 ≤ (x * x) >>> 96
  · refine ⟨1, ?_, ?_⟩
    · rw [Nat.shiftRight_add]; exact square_high h hs
    · rw [if_pos hs, log2Loop_acc, Nat.zero_add, Nat.one_mul, Nat.shiftRight_add]
  · refine ⟨0, square_low h hs, ?_⟩
    rw [if_neg hs, Nat.zero_mul, Nat.zero_add, Nat.add_zero]

/-- The loop never exceeds the real logarithm of the mantissa, and falls short of it by no more than one unit and
the truncations. -/
theorem log2Loop_near_logb (left : Nat) {x : Nat} (h : IsMantissa x) :
    (log2Loop left x 0 : ℝ) ≤ 2 ^ left * (Real.logb 2 x - 96) ∧
    2 ^ left * (Real.logb 2 x - 96) ≤ log2Loop left x 0 + 1 + 2 ^ left / 2 ^ 95 := by
  induction left generalizing x with
  | zero =>
    obtain ⟨hlow, hhigh⟩ := h
    have hxpos : (0 : ℝ) < x := by exact_mod_cast Nat.lt_of_lt_of_le (by norm_num) hlow
    have h1 : (96 : ℝ) ≤ Real.logb 2 x := by
      rw [Real.le_logb_iff_rpow_le one_lt_two hxpos]; exact_mod_cast hlow
    have h2 : Real.logb 2 x < 97 := by
      rw [Real.logb_lt_iff_lt_rpow one_lt_two hxpos]; exact_mod_cast hhigh
    rw [log2Loop, Nat.cast_zero]
    constructor <;> linarith
  | succ left ih =>
    obtain ⟨b, hx, hloop⟩ := log2Loop_finds_bit h left
    obtain ⟨hle, hge⟩ := ih hx
    obtain ⟨h1, h2⟩ := logb_shiftRight hx.1
    have hsq : Real.logb 2 ↑(x * x) = 2 * Real.logb 2 x := by
      rw [← pow_two, Nat.cast_pow, Real.logb_pow, Nat.cast_two]
    rw [hsq, Nat.cast_add, Nat.cast_ofNat] at h1 h2
    have hpos : (0 : ℝ) ≤ 2 ^ left := by positivity
    have h1' := mul_le_mul_of_nonneg_left h1 hpos
    have h2' := mul_le_mul_of_nonneg_left h2 hpos
    rw [hloop, pow_succ]
    push_cast
    constructor <;> linarith

/-- `Log2Fix(m)` is `2^32 * log2(m)` rounded down, up to less than one unit more. -/
theorem log2Fix_near_logb {m : Nat} (hm : 1 ≤ m) (h : m < 2 ^ 64) :
    (log2Fix m : ℝ) ≤ 2 ^ 32 * Real.logb 2 m ∧ 2 ^ 32 * Real.logb 2 m < log2Fix m + 2 := by
  have he : Nat.log2 m ≤ 96 := by
    have := (Nat.log2_lt (Nat.ne_of_gt hm)).2 h
    omega
  have hmpos : (0 : ℝ) < m := by exact_mod_cast hm
  have hmant : Real.logb 2 ↑(m * 2 ^ (96 - Nat.log2 m)) = Real.logb 2 m + (96 - Nat.log2 m) := by
    rw [Nat.cast_mul, Nat.cast_pow, Nat.cast_two, Real.logb_mul hmpos.ne' (by positivity), Real.logb_pow,
      Real.logb_self_eq_one one_lt_two, mul_one, Nat.cast_sub he, Nat.cast_ofNat]
  obtain ⟨h1, h2⟩ := log2Loop_near_logb 32 (mantissa_of hm h)
  rw [hmant] at h1 h2
  rw [log2Fix_eq]
  push_cast
  constructor <;> linarith

/-- Settles O39: each of the two logarithms is at most the real one and falls short of it by less than two units,
so their difference is off by less than two units either way. -/
theorem surpriseIsWithinTwoUnits : Obligations.SurpriseIsWithinTwoUnits := by
  intro c n hc hcn hn
  have hcpos : (0 : ℝ) < c := by exact_mod_cast hc
  have hnpos : (0 : ℝ) < n := by exact_mod_cast hc.trans hcn
  obtain ⟨hc1, hc2⟩ := log2Fix_near_logb hc (by omega)
  obtain ⟨hn1, hn2⟩ := log2Fix_near_logb (hc.trans hcn) hn
  rw [surprise_of_seen hc, Nat.cast_sub (log2Fix_mono hc hcn hn), Real.logb_div hnpos.ne' hcpos.ne', abs_lt]
  constructor <;> linarith

end Sys2Proof.Machine
end

section
/-! ### The bits of a byte at the monitor (42_health_monitor_ops.md R150, R155, R156) -/

namespace Sys2Proof.Machine

/-- Settles O33: the rules of the counters, the history, the sum and the count, for one bit. -/
theorem monitorStepFollowsItsRule : Obligations.MonitorStepFollowsItsRule := by
  refine ⟨?_, fun _ _ => rfl⟩
  intro m b c n hcount hbits hsum
  refine ⟨monitorBit_eSum_toNat m b hsum, ?_, fun h b' hother => ?_, monitorBit_hist m b,
    monitorBit_totBits_toNat m b hbits⟩
  · rw [monitorBit_context, if_pos rfl, bump_get_toNat _ b b hcount, if_pos rfl]
  · rw [monitorBit_context]
    split_ifs with hh
    · have hb : b' ≠ b := hother.resolve_left (absurd hh)
      rw [bump_get, if_neg hb, hh]
    · rfl

/-- The value of a byte from its bits, bit 7 first. -/
theorem byte_toNat_of_bits (data : Byte) :
    data.toNat = 128 * (data.getLsbD 7).toNat + 64 * (data.getLsbD 6).toNat + 32 * (data.getLsbD 5).toNat +
      16 * (data.getLsbD 4).toNat + 8 * (data.getLsbD 3).toNat + 4 * (data.getLsbD 2).toNat +
      2 * (data.getLsbD 1).toNat + (data.getLsbD 0).toNat := by
  revert data; decide

/-- Eight bits push everything older out of the history: it holds the low 7 bits of the byte. -/
theorem monitorByte_hist (data : Byte) (m : Monitor) : (monitorByte data m).hist.toNat = data.toNat % 128 := by
  have hbyte := byte_toNat_of_bits data
  simp only [monitorByte, bitsOf, List.map_cons, List.map_nil, List.foldl_cons, List.foldl_nil, monitorBit_hist]
  omega

/-- `PUSH.H` past the count guard (42_health_monitor_ops.md R151). -/
theorem exec_pushH_refused (data : Byte) {s : State} (h : s.monitor.saturated = true) :
    exec (.pushH data) s = .next (s.respond .errCntSat 0) := (exec_pushH data s).trans (if_pos h)

/-- Settles O34, on the two sides of the count guard. -/
theorem pushHCountsEightBits : Obligations.PushHCountsEightBits := by
  refine ⟨fun _ => rfl, fun data s h => ?_, fun data s h => exec_pushH_refused data ((saturated_iff _).2 h)⟩
  have hroom : s.monitor.totBits.toNat + 8 < 2 ^ 64 := by omega
  exact ⟨_, exec_pushH_accepted data (not_saturated_of_room hroom), rfl,
    monitorByte_totBits_toNat data s.monitor hroom, monitorByte_hist data s.monitor, rfl, rfl, rfl, rfl⟩

/-- The sum of a consistent monitor stays below `2^102` (10_state.md R32). -/
theorem Monitor.Consistent.eSum_lt {m : Monitor} (h : m.Consistent) : m.eSum.toNat < 2 ^ 102 := by
  have hbound := h.bits.bound
  have hbits := m.totBits.isLt
  omega

/-- Bits shown one after the other add less than `2^38` units each (42_health_monitor_ops.md R155). -/
theorem monitorBits_eSum_le (bits : List Bool) {m : Monitor} (hm : m.BitConsistent)
    (hroom : m.totBits.toNat + bits.length < 2 ^ 64) :
    (bits.foldl monitorBit m).eSum.toNat ≤ m.eSum.toNat + bits.length * (2 ^ 38 - 1) := by
  induction bits generalizing m with
  | nil => exact Nat.le_add_right _ _
  | cons b bits ih =>
    rw [List.length_cons] at hroom ⊢
    obtain ⟨-, hcost, hsum⟩ := hm.room b (by omega)
    have hT := monitorBit_totBits_toNat m b (by omega)
    have hE := monitorBit_eSum_toNat m b hsum
    have hrest := ih (monitorBit_keeps hm b (by omega)) (by omega)
    rw [List.foldl_cons]
    omega

/-- Settles O40, by the cost of one bit and the consistency kept bit by bit. -/
theorem entropySumNeverOverflows : Obligations.EntropySumNeverOverflows := by
  refine ⟨fun _ _ => surprise_lt, fun _ => Monitor.Consistent.eSum_lt, fun data m hm h => ?_⟩
  have hroom : m.totBits.toNat + (bitsOf data).length < 2 ^ 64 := by rw [bitsOf_length]; omega
  have hle := monitorBits_eSum_le (bitsOf data) hm.bits hroom
  rw [bitsOf_length] at hle
  exact ⟨(monitorBits_atMost (bitsOf data) hm.bits hroom).eSum, hle⟩

end Sys2Proof.Machine
end

section
/-! ### The verdict and the estimate (42_health_monitor_ops.md R160 to R162) -/

namespace Sys2Proof.Machine

section
variable {E N T L W : Nat}

/-- Below the window the verdict is 1 whatever the rest is. -/
theorem verdict_below_window (h : N < W) : verdict E N T L W = true := if_pos h

/-- With no data the estimate counts as 0 bit (42_health_monitor_ops.md R160). -/
theorem verdict_without_data (hW : W ≤ N) (hN : N = 0) : verdict E N T L W = true ↔ T * 10 ^ 6 ≤ T * L := by
  rw [verdict, if_neg (Nat.not_lt.2 hW), if_pos hN, decide_eq_true_iff]

/-- With data the verdict compares over the integers. -/
theorem verdict_with_data (hW : W ≤ N) (hN : N ≠ 0) : verdict E N T L W = true ↔
    |(E : ℤ) * 10 ^ 12 - T * 10 ^ 6 * 2 ^ 32 * N| ≤ (T * L * 2 ^ 32 * N : ℤ) := by
  rw [verdict, if_neg (Nat.not_lt.2 hW), if_neg hN, decide_eq_true_iff, Int.abs_eq_natAbs,
    ← Nat.cast_le (α := ℤ)]
  push_cast
  rfl

end

/-- Settles O41, by the three cases of the verdict. -/
theorem healthyAnswersTheVerdict : Obligations.HealthyAnswersTheVerdict := by
  refine ⟨rfl, ?_⟩
  intro s E N T L
  have hone : ((if s.isHealthy then 1 else 0 : Word64) = 1) ↔ s.isHealthy = true := by
    cases s.isHealthy <;> decide
  refine ⟨_, exec_healthy s, ?_, fun hwin => ?_, fun hwin hdata => ?_, fun hwin hdata => ?_⟩
  · cases s.isHealthy
    · exact .inl rfl
    · exact .inr rfl
  · exact hone.2 (verdict_below_window (by omega))
  · rw [hone, State.isHealthy, verdict_without_data (by omega) (by omega)]
    exact Int.ofNat_le.symm
  · rw [hone, State.isHealthy, verdict_with_data (by omega) (by omega)]

/-- The rational inequality is the integer one divided by the positive number `2^32 * N * 10^12`. -/
theorem verdict_iff_source_inequality {E N T L W : Nat} (hW : W ≤ N) (hN : 0 < N) :
    verdict E N T L W = true ↔
      |(E : ℚ) / (2 ^ 32 * N) - (T : ℚ) / 10 ^ 6| ≤ (T : ℚ) / 10 ^ 6 * ((L : ℚ) / 10 ^ 6) := by
  have hscale : (0 : ℚ) < 2 ^ 32 * N * 10 ^ 12 := by positivity
  have hdiff : ((E : ℚ) / (2 ^ 32 * N) - T / 10 ^ 6) * (2 ^ 32 * N * 10 ^ 12) =
      E * 10 ^ 12 - T * 10 ^ 6 * 2 ^ 32 * (N : ℚ) := by field_simp
  have hleft : |(E : ℚ) / (2 ^ 32 * N) - T / 10 ^ 6| * (2 ^ 32 * (N : ℚ) * 10 ^ 12) =
      |(E : ℚ) * 10 ^ 12 - T * 10 ^ 6 * 2 ^ 32 * N| := by rw [← hdiff, abs_mul, abs_of_pos hscale]
  have hright : (T : ℚ) / 10 ^ 6 * (L / 10 ^ 6) * (2 ^ 32 * N * 10 ^ 12) = T * L * 2 ^ 32 * N := by
    field_simp
  rw [verdict_with_data hW hN.ne', ← mul_le_mul_iff_of_pos_right hscale, hleft, hright,
    ← Int.cast_le (R := ℚ), Int.cast_abs]
  push_cast
  rfl

/-- The sizes of the numbers the integer test compares. -/
theorem verdict_intermediates_lt {E N T L : Nat} (hE : E < 2 ^ 102) (hN : N < 2 ^ 64) (hT : T < 2 ^ 32)
    (hL : L < 2 ^ 32) :
    T * L * 2 ^ 32 * N < 2 ^ 160 ∧ E * 10 ^ 12 < 2 ^ 142 ∧ T * 10 ^ 6 * 2 ^ 32 * N < 2 ^ 148 := by
  have hTL : T * L < 2 ^ 32 * 2 ^ 32 := Nat.mul_lt_mul'' hT hL
  have hTN : T * N < 2 ^ 32 * 2 ^ 64 := Nat.mul_lt_mul'' hT hN
  have hTLN : T * L * N < 2 ^ 32 * 2 ^ 32 * 2 ^ 64 := Nat.mul_lt_mul'' hTL hN
  rw [Nat.mul_right_comm _ (2 ^ 32) N, Nat.mul_right_comm _ (2 ^ 32) N, Nat.mul_right_comm T (10 ^ 6) N]
  omega

/-- Settles O42: the scaled inequality, and the bounds of its factors multiplied out. -/
theorem verdictDecidesTheSourceInequality : Obligations.VerdictDecidesTheSourceInequality :=
  ⟨fun _ _ _ _ _ => verdict_iff_source_inequality, fun _ _ _ _ => verdict_intermediates_lt⟩

/-- With no data the estimate is 0. -/
theorem estimate_without_data {m : Monitor} (h : m.totBits.toNat = 0) : m.estimate = 0 := if_pos h

/-- With data the estimate is the truncated quotient. -/
theorem estimate_with_data {m : Monitor} (h : m.totBits.toNat ≠ 0) :
    m.estimate = m.eSum.toNat / m.totBits.toNat := if_neg h

/-- The mean cost of a bit is below `2^38`, like the cost of each. -/
theorem estimate_lt {m : Monitor} (hm : m.Consistent) : m.estimate < 2 ^ 38 := by
  by_cases h : m.totBits.toNat = 0
  · rw [estimate_without_data h]; norm_num
  · rw [estimate_with_data h, Nat.div_lt_iff_lt_mul (Nat.pos_of_ne_zero h)]
    have hbound := hm.bits.bound
    omega

/-- Settles O43: the estimate fits the 64 bits of the response. -/
theorem entropyAnswersTheMean : Obligations.EntropyAnswersTheMean := by
  refine ⟨rfl, fun s hm => ?_⟩
  have hlt := estimate_lt hm
  have hdata : (BitVec.ofNat 64 s.monitor.estimate).toNat = s.monitor.estimate :=
    Nat.mod_eq_of_lt (by omega)
  refine ⟨_, exec_entropy s, fun h => ?_, fun h => ?_, ?_⟩
  · rw [estimate_without_data h]; rfl
  · rw [hdata, estimate_with_data h]
  · rw [hdata]; exact hlt

end Sys2Proof.Machine
end

section
/-! ### The all-zero stream (42_health_monitor_ops.md R164(a)) -/

namespace Sys2Proof.Machine

@[simp] theorem contextAfter_replicate_false (k : Nat) : contextAfter (List.replicate k false) = 0 := by
  induction k with
  | zero => rfl
  | succ k ih =>
    apply BitVec.eq_of_toNat_eq
    rw [List.replicate_succ, contextAfter_cons, ih]; rfl

theorem timesSeen_false_replicate (k : Nat) : timesSeen 0 false (List.replicate k false) = k := by
  induction k with
  | zero => rfl
  | succ k ih => rw [List.replicate_succ, timesSeen_cons, ih, contextAfter_replicate_false, if_pos ⟨rfl, rfl⟩]

theorem timesSeen_true_replicate (k : Nat) : timesSeen 0 true (List.replicate k false) = 0 := by
  induction k with
  | zero => rfl
  | succ k ih => rw [List.replicate_succ, timesSeen_cons, ih, if_neg fun h => Bool.false_ne_true h.2]

/-- The first zero is a value never seen and costs one bit; each later one was always seen and costs nothing. -/
theorem codeLength_replicate_false (k : Nat) : codeLength (List.replicate (k + 1) false) = 2 ^ 32 := by
  induction k with
  | zero => rfl
  | succ k ih =>
    rw [List.replicate_succ, codeLength_cons, ih, contextAfter_replicate_false, timesSeen_false_replicate,
      timesSeen_true_replicate, Nat.add_zero, surprise_self (Nat.le_add_left 1 k), Nat.add_zero]

/-- The bits of the byte `0x00` put eight more zeros before a stream of zeros. -/
theorem bitsOf_zero_append (n : Nat) :
    (bitsOf 0).reverse ++ List.replicate (8 * n) false = List.replicate (8 * (n + 1)) false := by
  rw [show (bitsOf 0).reverse = List.replicate 8 false from rfl, List.replicate_append_replicate, Nat.mul_succ,
    Nat.add_comm]

/-- Bytes `0x00` pushed from reset leave the monitor where the stream of zeros leads. -/
theorem pushH_zeros_tracks (n : Nat) (h : 8 * n < 2 ^ 64) :
    ((List.replicate n (Instr.pushH 0)).foldl State.issue State.reset).monitor.Tracks
      (List.replicate (8 * n) false) := by
  induction n with
  | zero => exact monitor_reset_tracks
  | succ n ih =>
    have hprev := ih (by omega)
    rw [List.replicate_succ', List.foldl_append, List.foldl_cons, List.foldl_nil]
    generalize (List.replicate n (Instr.pushH 0)).foldl State.issue State.reset = s at hprev ⊢
    have hbits : s.monitor.totBits.toNat = 8 * n := by
      rw [((tracks_iff _ _).1 hprev).1.totBits, List.length_replicate]
    have hroom := not_saturated_of_room (m := s.monitor) (by omega)
    rw [issue_eq_of_exec (exec_pushH_accepted 0 hroom), ← bitsOf_zero_append]
    exact monitorByte_tracks hprev hroom 0

/-- One bit of surprise in all is healthy by the reset configuration up to the window only. -/
theorem verdict_zeros_iff (N : Nat) : verdict (2 ^ 32) N 864000 50000 80000 = true ↔ N < 80000 := by
  constructor
  · intro h
    by_contra hN
    rw [verdict_with_data (by omega) (by omega), abs_le] at h
    omega
  · exact verdict_below_window

/-- Settles O44: the all-zero stream is tracked, and its code length is one bit. -/
theorem allZeroStreamTurnsUnhealthy : Obligations.AllZeroStreamTurnsUnhealthy := by
  intro n hn hroom s
  have htracks : s.monitor.Tracks (List.replicate (8 * n) false) := pushH_zeros_tracks n hroom
  have hconfig : s.config = ConfigRegs.reset := foldl_issue_config (fun i hi => by
    rw [List.eq_of_mem_replicate hi]; exact fun _ _ => Instr.noConfusion) State.reset
  clear_value s
  obtain ⟨⟨hhist, htot, hcount, hsum⟩, -⟩ := (tracks_iff _ _).1 htracks
  have hzeros : 8 * n = (8 * n - 1) + 1 := by omega
  rw [List.length_replicate] at htot
  rw [hzeros, codeLength_replicate_false] at hsum
  rw [contextAfter_replicate_false] at hhist
  refine ⟨hsum, htot, hhist, (hcount 0 false).trans (timesSeen_false_replicate _), ?_, ?_⟩
  · rw [estimate_with_data (by omega), hsum, htot]
  · rw [State.isHealthy, hsum, htot, hconfig]; exact verdict_zeros_iff (8 * n)

end Sys2Proof.Machine
end

section
/-! ### Reading a register (43_system_ops.md R180) -/

namespace Sys2Proof.Machine

/-- What a register holds, as a number (10_state.md R45). -/
def csrValue (s : State) : Csr → Nat
  | .target    => s.config.target.toNat
  | .tolerance => s.config.tolerance.toNat
  | .window    => s.config.window.toNat
  | .totBits   => s.monitor.totBits.toNat
  | .eSumLo    => s.monitor.eSum.toNat % 2 ^ 64
  | .eSumHi    => s.monitor.eSum.toNat / 2 ^ 64
  | .hist      => s.monitor.hist.toNat
  | .chCnt     => s.whitener.chCnt.val
  | .poolCnt   => 2048 - s.whitener.poolRd.val

/-- A register reads as the number it holds: 64 bits are wide enough for each. -/
theorem csrRead_toNat (r : Csr) (s : State) : (csrRead r s).toNat = csrValue s r := by
  cases r with
  | window | totBits => rfl
  | target | tolerance | hist => exact BitVec.toNat_setWidth_of_le (by decide)
  | eSumLo => exact BitVec.extractLsb'_toNat 0 64 s.monitor.eSum
  | eSumHi =>
    have hlt : s.monitor.eSum.toNat / 2 ^ 64 < 2 ^ 64 :=
      Nat.div_lt_of_lt_mul (s.monitor.eSum.isLt.trans_eq (pow_add 2 64 64))
    rw [csrRead, csrValue, BitVec.extractLsb'_toNat, Nat.shiftRight_eq_div_pow, Nat.mod_eq_of_lt hlt]
  | chCnt => exact Nat.mod_eq_of_lt (s.whitener.chCnt.isLt.trans (by decide))
  | poolCnt => exact Nat.mod_eq_of_lt ((Nat.sub_le _ _).trans_lt (by decide))

/-- What `CSRR` answers to a number. -/
def csrrResponse (csr : Byte) (s : State) : Response :=
  match csrOfNumber csr with
  | some r => { status := .ok, rdata := csrRead r s }
  | none   => { status := .errCsr, rdata := 0 }

/-- `CSRR` answers and does nothing else. -/
theorem exec_csrr_eq (csr : Byte) (s : State) :
    exec (.csrr csr) s = .next { s with outbox := csrrResponse csr s :: s.outbox } := by
  rw [exec_csrr, csrrResponse]
  cases csrOfNumber csr <;> rfl

/-- A register's number is answered `OK` with what the register holds. -/
theorem csrrResponse_spec (r : Csr) (s : State) :
    (csrrResponse (csrNumber r) s).status = .ok ∧
    (csrrResponse (csrNumber r) s).rdata.toNat = csrValue s r := by
  rw [csrrResponse, csrOfNumber_csrNumber]
  exact ⟨rfl, csrRead_toNat r s⟩

/-- A number outside the map names no register (10_state.md R45). -/
theorem csrOfNumber_eq_none {csr : Byte}
    (h : csr ∉ ([0x00, 0x01, 0x02, 0x10, 0x11, 0x12, 0x13, 0x20, 0x21] : List Byte)) :
    csrOfNumber csr = none := by
  rw [Option.eq_none_iff_forall_ne_some]
  intro r hr
  refine h ?_
  rw [csrOfNumber_eq_some.1 hr]
  cases r <;> decide

theorem csrrResponse_unnamed {csr : Byte} (h : csrOfNumber csr = none) (s : State) :
    csrrResponse csr s = { status := .errCsr, rdata := 0 } := by
  rw [csrrResponse, h]

/-- Settles O47: `CSRR` only answers; the map's clauses are one law of the nine registers. -/
theorem csrrReadsTheRegisterMap : Obligations.CsrrReadsTheRegisterMap := by
  intro csr s
  refine ⟨rfl, (csrrResponse csr s).status, (csrrResponse csr s).rdata, exec_csrr_eq csr s, ?target,
    ?tolerance, ?window, ?totBits, ?eSumLo, ?eSumHi, ?hist, ?chCnt, ?poolCnt, ?unnamed⟩
  case target => rintro rfl; exact csrrResponse_spec .target s
  case tolerance => rintro rfl; exact csrrResponse_spec .tolerance s
  case window => rintro rfl; exact ⟨rfl, rfl⟩
  case totBits => rintro rfl; exact ⟨rfl, rfl⟩
  case eSumLo => rintro rfl; exact csrrResponse_spec .eSumLo s
  case eSumHi => rintro rfl; exact csrrResponse_spec .eSumHi s
  case hist => rintro rfl; exact csrrResponse_spec .hist s
  case chCnt => rintro rfl; exact csrrResponse_spec .chCnt s
  case poolCnt => rintro rfl; exact csrrResponse_spec .poolCnt s
  case unnamed =>
    intro h
    rw [csrrResponse_unnamed (csrOfNumber_eq_none h)]
    exact ⟨rfl, rfl⟩

end Sys2Proof.Machine
end

section
/-! ### Writing a register (43_system_ops.md R181, 10_state.md R43) -/

namespace Sys2Proof.Machine

/-- The three writes that are accepted, with all that each does to the configuration. -/
theorem csrWrite_eq_some {r : Csr} {value : Word64} {c c' : ConfigRegs} :
    csrWrite r value c = some c' ↔
      r = .target ∧ value.toNat < 2 ^ 32 ∧ c' = { c with target := value.setWidth 32 } ∨
      r = .tolerance ∧ value.toNat < 2 ^ 32 ∧ c' = { c with tolerance := value.setWidth 32 } ∨
      r = .window ∧ c' = { c with window := value } := by
  cases r <;> simp [csrWrite, eq_comm]

/-- An accepted write answers `OK` and changes the configuration alone. -/
theorem exec_csrw_accepted {r : Csr} (value : Word64) (s : State) {c : ConfigRegs}
    (h : csrWrite r value s.config = some c) :
    exec (.csrw (csrNumber r) value) s = .next (State.respond { s with config := c } .ok 0) := by
  rw [exec_csrw, csrOfNumber_csrNumber, Option.bind_some, h]

/-- Everything `CSRW` can do: write the register its number names, or be refused. -/
theorem exec_csrw_cases (csr : Byte) (value : Word64) (s : State) :
    (∃ r c, csr = csrNumber r ∧ csrWrite r value s.config = some c) ∨
    exec (.csrw csr value) s = .next (s.respond .errCsr 0) := by
  rw [exec_csrw]
  cases h : (csrOfNumber csr).bind fun r => csrWrite r value s.config with
  | none => exact .inr rfl
  | some c =>
    obtain ⟨r, hr, hw⟩ := Option.bind_eq_some_iff.1 h
    exact .inl ⟨r, c, csrOfNumber_eq_some.1 hr, hw⟩

/-- Only a value that fits is written, and only to a configuration register. -/
theorem number_of_csrWrite {r : Csr} {value : Word64} {c c' : ConfigRegs}
    (h : csrWrite r value c = some c') :
    csrNumber r = 0x02 ∨ (csrNumber r = 0x00 ∨ csrNumber r = 0x01) ∧ value.toNat < 2 ^ 32 := by
  obtain ⟨rfl, hfit, -⟩ | ⟨rfl, hfit, -⟩ | ⟨rfl, -⟩ := csrWrite_eq_some.1 h
  · exact .inr ⟨.inl rfl, hfit⟩
  · exact .inr ⟨.inr rfl, hfit⟩
  · exact .inl rfl

/-- A value that fits 32 bits is held by them exactly. -/
theorem toNat_setWidth_of_fits {value : Word64} (h : value.toNat < 2 ^ 32) :
    (value.setWidth 32).toNat = value.toNat := by
  rw [BitVec.toNat_setWidth, Nat.mod_eq_of_lt h]

/-- A register reads as the value written to it. -/
theorem csrRead_of_csrWrite {r : Csr} {value : Word64} {c : ConfigRegs} {t : State}
    (h : csrWrite r value c = some t.config) : csrRead r t = value := by
  apply BitVec.eq_of_toNat_eq
  rw [csrRead_toNat]
  obtain ⟨rfl, hfit, hc⟩ | ⟨rfl, hfit, hc⟩ | ⟨rfl, hc⟩ := csrWrite_eq_some.1 h
  · rw [csrValue, hc]; exact toNat_setWidth_of_fits hfit
  · rw [csrValue, hc]; exact toNat_setWidth_of_fits hfit
  · rw [csrValue, hc]

/-- Settles O48: the accepted writes are three, every other one is refused, and an accepted one reads back. -/
theorem csrwWritesOneRegister : Obligations.CsrwWritesOneRegister := by
  intro csr value s
  refine ⟨rfl, ?target, ?tolerance, ?window, ?refused, ?readBack⟩
  case target =>
    rintro rfl hfit
    have e := exec_csrw_accepted value s (csrWrite_eq_some.2 (.inl ⟨rfl, hfit, rfl⟩))
    exact ⟨_, e, toNat_setWidth_of_fits hfit, rfl, rfl⟩
  case tolerance =>
    rintro rfl hfit
    have e := exec_csrw_accepted value s (csrWrite_eq_some.2 (.inr (.inl ⟨rfl, hfit, rfl⟩)))
    exact ⟨_, e, rfl, toNat_setWidth_of_fits hfit, rfl⟩
  case window =>
    rintro rfl
    have e := exec_csrw_accepted value s (csrWrite_eq_some.2 (.inr (.inr ⟨rfl, rfl⟩)))
    exact ⟨_, e, rfl, rfl, rfl⟩
  case refused =>
    intro hillegal
    obtain ⟨r, c, rfl, hw⟩ | hrefused := exec_csrw_cases csr value s
    · exact absurd (number_of_csrWrite hw) hillegal
    · exact hrefused
  case readBack =>
    intro hok
    obtain ⟨r, c, rfl, hw⟩ | hrefused := exec_csrw_cases csr value s
    · rw [issue_eq_of_exec (exec_csrw_accepted value s hw), issue_csrr, respond_lastResponse,
        csrRead_of_csrWrite (c := s.config) hw]
    · rw [issue_eq_of_exec hrefused] at hok
      exact absurd hok nofun

end Sys2Proof.Machine
end

section
/-! ### The response code of a command (60_exceptions.md R190, R191, R197) -/

namespace Sys2Proof.Machine

/-- The code that a command is answered with, as the spec's own condition on the state and the operands
(60_exceptions.md R190), in the order of the checks (R197). -/
def responseStatus (s : State) : Instr → Status
  | .pushW _ => if s.whitener.poolRd.val ≠ 2048 then .errPoolBusy else .ok
  | .pushH _ => if 2 ^ 64 - 9 < s.monitor.totBits.toNat then .errCntSat else .ok
  | .pushWH _ =>
    if s.whitener.poolRd.val ≠ 2048 then .errPoolBusy
    else if 2 ^ 64 - 9 < s.monitor.totBits.toNat then .errCntSat else .ok
  | .rdpool => if s.whitener.poolRd.val = 2048 then .errPoolEmpty else .ok
  | .discard | .healthy | .entropy => .ok
  | .csrr csr =>
    if csr ∈ ([0x00, 0x01, 0x02, 0x10, 0x11, 0x12, 0x13, 0x20, 0x21] : List Byte) then .ok else .errCsr
  | .csrw csr value =>
    if csr = 0x02 ∨ ((csr = 0x00 ∨ csr = 0x01) ∧ value.toNat < 2 ^ 32) then .ok else .errCsr

/-- The two ways a command ends: it is refused, and then nothing but the response is added to the state, or it
answers `OK`. -/
inductive AnswersWith (i : Instr) (s : State) : Status → Prop
  | refused {code : Status} (hcode : code ≠ .ok) (e : exec i s = .next (s.respond code 0)) :
      AnswersWith i s code
  | accepted {t : State} {d : Word64} (e : exec i s = .next t)
      (hout : t.outbox = { status := .ok, rdata := d } :: s.outbox) : AnswersWith i s .ok

/-- The response of a command, and that a refusal is precise and total (60_exceptions.md R191). -/
theorem AnswersWith.response {i : Instr} {s : State} {code : Status} (a : AnswersWith i s code) :
    ∃ t r, exec i s = .next t ∧ t.outbox = r :: s.outbox ∧
      (r.status ≠ .ok → r.rdata = 0 ∧ t = { s with outbox := r :: s.outbox }) ∧ r.status = code := by
  cases a with
  | refused _ e => exact ⟨_, _, e, rfl, fun _ => ⟨rfl, rfl⟩, rfl⟩
  | accepted e hout => exact ⟨_, _, e, hout, fun h => absurd rfl h, rfl⟩

/-- The numbers of the CSR map name registers (10_state.md R45). -/
theorem number_of_mem_csrMap {csr : Byte}
    (h : csr ∈ ([0x00, 0x01, 0x02, 0x10, 0x11, 0x12, 0x13, 0x20, 0x21] : List Byte)) :
    ∃ r, csrOfNumber csr = some r := by
  rw [← Option.isSome_iff_exists]
  revert csr
  decide

/-- `CSRW` is accepted for `WINDOW`, and for `TARGET` and `TOLERANCE` with a value that fits
(43_system_ops.md R181). -/
theorem csrw_answers_ok {csr : Byte} {value : Word64} (s : State)
    (h : csr = 0x02 ∨ ((csr = 0x00 ∨ csr = 0x01) ∧ value.toNat < 2 ^ 32)) :
    AnswersWith (.csrw csr value) s .ok := by
  obtain rfl | ⟨rfl | rfl, hfit⟩ := h
  · exact .accepted (exec_csrw_accepted value s (csrWrite_eq_some.2 (.inr (.inr ⟨rfl, rfl⟩)))) rfl
  · exact .accepted (exec_csrw_accepted value s (csrWrite_eq_some.2 (.inl ⟨rfl, hfit, rfl⟩))) rfl
  · exact .accepted (exec_csrw_accepted value s (csrWrite_eq_some.2 (.inr (.inl ⟨rfl, hfit, rfl⟩)))) rfl

/-- `PUSH.WH` on an empty pool, past the count guard (40_whitener_ops.md R103). -/
theorem exec_pushWH_saturated (data : Byte) {s : State} (hempty : s.whitener.poolRd.val = 2048)
    (hsat : 2 ^ 64 - 9 < s.monitor.totBits.toNat) :
    exec (.pushWH data) s = .next (s.respond .errCntSat 0) := by
  obtain ⟨-, -, -, hrefused⟩ := pushWHFeedsBothUnits
  exact hrefused data s hempty hsat

/-- Every command is answered with the code of the spec's condition. -/
theorem exec_answersWith (i : Instr) (s : State) : AnswersWith i s (responseStatus s i) := by
  cases i with
  | pushW data =>
    rw [responseStatus]
    split_ifs with hbusy
    · exact .refused nofun (exec_whitener_push_busy data hbusy).1
    · exact .accepted (exec_pushW_accepted data (not_not.1 hbusy)) rfl
  | pushH data =>
    rw [responseStatus]
    split_ifs with hsat
    · exact .refused nofun (exec_pushH_refused data ((saturated_iff _).2 hsat))
    · exact .accepted (exec_pushH_accepted data (eq_false_of_ne_true (mt (saturated_iff _).1 hsat))) rfl
  | pushWH data =>
    rw [responseStatus]
    split_ifs with hbusy hsat
    · exact .refused nofun (exec_whitener_push_busy data hbusy).2
    · exact .refused nofun (exec_pushWH_saturated data (not_not.1 hbusy) hsat)
    · obtain ⟨hb, hs⟩ := (guards_false_iff s).2 ⟨not_not.1 hbusy, not_lt.1 hsat⟩
      exact .accepted (exec_pushWH_accepted data hb hs) rfl
  | rdpool =>
    rw [responseStatus]
    split_ifs with hempty
    · exact .refused nofun (exec_rdpool_empty s hempty)
    · obtain ⟨p, -, e⟩ := exec_rdpool_delivers s hempty
      exact .accepted e rfl
  | discard => exact .accepted (exec_discard s) rfl
  | healthy => exact .accepted (exec_healthy s) rfl
  | entropy => exact .accepted (exec_entropy s) rfl
  | csrr csr =>
    rw [responseStatus]
    split_ifs with hnamed
    · obtain ⟨r, hr⟩ := number_of_mem_csrMap hnamed
      exact .accepted (by rw [exec_csrr, hr]) rfl
    · exact .refused nofun (exec_csr_unnamed (csrOfNumber_eq_none hnamed) 0 s).1
  | csrw csr value =>
    rw [responseStatus]
    split_ifs with hlegal
    · exact csrw_answers_ok s hlegal
    · obtain ⟨r, c, rfl, hw⟩ | hrefused := exec_csrw_cases csr value s
      · exact absurd (number_of_csrWrite hw) hlegal
      · exact .refused nofun hrefused

/-- `ERR_ILLEGAL` is kept for words that are no command (60_exceptions.md R190, R192). -/
theorem responseStatus_ne_errIllegal (s : State) (i : Instr) : responseStatus s i ≠ .errIllegal := by
  cases i with
  | pushW | pushH | pushWH | rdpool | csrr | csrw => rw [responseStatus]; split_ifs <;> nofun
  | discard | healthy | entropy => nofun

/-- Settles O9: a command is refused by responding alone, and so is an illegal word. -/
theorem refusalChangesNothing : Obligations.RefusalChangesNothing := by
  refine ⟨fun i s => ?command, fun s c rest hin hd => ⟨_, rfl, step_illegal s c rest hin hd⟩⟩
  case command =>
    obtain ⟨t, r, e, hout, hrefused, -⟩ := (exec_answersWith i s).response
    exact ⟨t, r, e, hout, hrefused⟩

/-- Settles O10: the code is the spec's condition, command by command. -/
theorem eachRefusalHasItsCause : Obligations.EachRefusalHasItsCause := by
  refine ⟨fun i s => ?command, step_illegal, fun st => ?numbers, rfl, rfl, rfl, rfl, rfl, rfl⟩
  case command =>
    obtain ⟨t, r, e, hout, hrefused, hstatus⟩ := (exec_answersWith i s).response
    exact ⟨t, r, e, hout, hrefused, by cases i <;> exact hstatus⟩
  case numbers => cases st <;> decide

/-- Settles O12: `RDPOOL` and `PUSH.W` test the same `POOLRD` against 2048, and each passes where the
other is refused. -/
theorem poolEmptyAndPoolBusyExclude : Obligations.PoolEmptyAndPoolBusyExclude := by
  intro s data
  by_cases hempty : s.whitener.poolRd.val = 2048
  · exact ⟨_, _, exec_rdpool_empty s hempty, exec_pushW_accepted data hempty, .inl ⟨hempty, rfl, rfl⟩⟩
  · obtain ⟨p, -, e⟩ := exec_rdpool_delivers s hempty
    exact ⟨_, _, e, (exec_whitener_push_busy data hempty).1, .inr ⟨hempty, rfl, rfl⟩⟩

end Sys2Proof.Machine
end

section
/-! ### The whole step: illegal words, and an answer in every state (60_exceptions.md R192, R205) -/

namespace Sys2Proof.Machine

/-- Whether a word is illegal does not depend on `WDATA` (60_exceptions.md R192). -/
theorem decode_eq_none_congr (w : CmdWord) (a b : Word64) : decode w b = none ↔ decode w a = none := by
  rw [decode_withWdata w a b, Option.map_eq_none_iff]

/-- Settles O5: a word that decodes to no command is refused as illegal, and no command has that code. -/
theorem illegalIsDecidedFromTheWordAlone : Obligations.IllegalIsDecidedFromTheWordAlone := by
  intro w a b s rest hin
  rw [← decode_eq_none_congr w a b]
  cases hd : decode w b with
  | none => exact ⟨_, _, step_illegal s _ rest hin hd, rfl, iff_of_true rfl rfl, fun _ => ⟨rfl, rfl, rfl, rfl⟩⟩
  | some i =>
    obtain ⟨t, r, e, hout, -, hstatus⟩ := (exec_answersWith i { s with inbox := rest }).response
    have hlegal : r.status ≠ .errIllegal := hstatus ▸ responseStatus_ne_errIllegal _ i
    exact ⟨t, r, (step_command s _ rest i hin hd).trans e, hout, iff_of_false hlegal nofun, nofun⟩

/-- A presented word is taken off the port and gets exactly one response, whether it is a command or not. -/
theorem step_answers_command {s : State} {c : Command} {rest : List PortEvent}
    (hin : s.inbox = .command c :: rest) :
    ∃ t r, step s = .next t ∧ t.inbox = rest ∧ t.outbox = r :: s.outbox := by
  cases hd : decode c.cmd c.wdata with
  | none => exact ⟨_, _, step_illegal s c rest hin hd, rfl, rfl⟩
  | some i =>
    obtain ⟨w, m, cfg, r, e⟩ := exec_from_units i s.whitener s.monitor s.config
    exact ⟨_, r, (step_command s c rest i hin hd).trans (e rest s.outbox), rfl, rfl⟩

/-- Settles O7, by what the host presents next: nothing, a reset, or a command. -/
theorem everyStepAnswers : Obligations.EveryStepAnswers := by
  intro s
  match hin : s.inbox with
  | [] => exact ⟨s, step_idle s hin, fun _ => rfl, nofun, nofun⟩
  | .reset :: rest =>
    refine ⟨_, step_reset s rest hin, nofun, ?_, nofun⟩
    rintro _ ⟨⟩
    exact ⟨rfl, rfl⟩
  | .command c :: rest =>
    obtain ⟨t, r, e, hinbox, hout⟩ := step_answers_command hin
    refine ⟨t, e, nofun, nofun, ?_⟩
    rintro _ _ ⟨⟩
    exact ⟨hinbox, r, hout⟩

end Sys2Proof.Machine
end

section
/-! ### The saturated count (60_exceptions.md R194) -/

namespace Sys2Proof.Machine

/-- Past the guard no command moves the monitor: the only commands that write it are refused. -/
theorem exec_monitor_of_saturated (i : Instr) {s : State} (h : s.monitor.saturated = true) :
    ∃ t, exec i s = .next t ∧ t.monitor = s.monitor := by
  obtain ⟨t, r, e, a⟩ := exec_answered i s
  refine ⟨t, e, ?_⟩
  cases a.monitor with
  | unchanged _ hm => exact hm
  | pushed _ _ _ hroom _ => rw [h] at hroom; cases hroom

/-- Settles O13: the monitor's pushes are refused, and the other guards do not look at the count. -/
theorem saturationIsPermanent : Obligations.SaturationIsPermanent := by
  intro s hsat
  have h : s.monitor.saturated = true := (saturated_iff _).2 hsat
  refine ⟨fun i => exec_monitor_of_saturated i h, fun data => ⟨_, exec_pushH_refused data h, rfl⟩,
    fun data => ?pushWH, ⟨_, exec_healthy s, rfl⟩, ⟨_, exec_entropy s, rfl⟩,
    fun data hempty => ⟨_, exec_pushW_accepted data hempty, rfl, rfl⟩, fun hheld => ?rdpool,
    ⟨_, exec_discard s, rfl⟩⟩
  case pushWH =>
    by_cases hempty : s.whitener.poolRd.val = 2048
    · exact ⟨_, exec_pushWH_saturated data hempty hsat, .inl rfl⟩
    · exact ⟨_, (exec_whitener_push_busy data hempty).2, .inr rfl⟩
  case rdpool =>
    obtain ⟨p, -, e⟩ := exec_rdpool_delivers s hheld
    exact ⟨_, e, rfl⟩

end Sys2Proof.Machine
end

section
/-! ### Reset and the first responses after it (70_reset_and_hazards.md R211, R212) -/

namespace Sys2Proof.Machine

/-- Settles O54: the reset units replace those of the state, and only the port is kept. -/
theorem resetIsTotal : Obligations.ResetIsTotal := by
  intro s rest hin
  exact ⟨_, step_reset s rest hin, rfl, rfl, rfl⟩

/-- The host sees the response with which a command ends. -/
theorem issue_lastResponse {i : Instr} {s t : State} {status : Status} {rdata : Word64}
    (h : exec i s = .next (t.respond status rdata)) :
    (s.issue i).lastResponse = some { status := status, rdata := rdata } := by
  rw [issue_eq_of_exec h, respond_lastResponse]

/-- No bit is counted at reset, so the count is below the window (42_health_monitor_ops.md R160). -/
theorem reset_isHealthy : State.reset.isHealthy = true := verdict_below_window (by decide)

/-- No bit is counted at reset (42_health_monitor_ops.md R162). -/
theorem monitor_reset_estimate : Monitor.reset.estimate = 0 := estimate_without_data rfl

/-- Settles O55: each command's own equation, at an empty pool, with no data, with nothing gathered. -/
theorem firstResponsesAfterReset : Obligations.FirstResponsesAfterReset := by
  refine ⟨fun i => ⟨_, exec_eq_issue i State.reset⟩, ?rdpool, ?healthy, ?entropy, ?poolCnt, ?chCnt⟩
  case rdpool => exact issue_lastResponse (exec_rdpool_empty State.reset rfl)
  case healthy => rw [issue_lastResponse (exec_healthy State.reset), if_pos reset_isHealthy]
  case entropy =>
    rw [issue_lastResponse (exec_entropy State.reset), reset_monitor, monitor_reset_estimate]; rfl
  case poolCnt => exact congrArg State.lastResponse (issue_csrr .poolCnt State.reset)
  case chCnt => exact congrArg State.lastResponse (issue_csrr .chCnt State.reset)

end Sys2Proof.Machine
end
